-- ==== Sys2Proof/Word.lean ====
section
/-! DEFINITION. The word types of the machine: the fixed widths of spec/00_scope.md R5 and R9. -/

namespace Sys2Proof

/-- A 32-bit value: a general register, the pc, a CSR, an address, an instruction word (R9).
The two readings `u(v)` and `s(v)` of R9 are `BitVec.toNat` and `BitVec.toInt`. -/
abbrev Word := BitVec 32

/-- The addressable unit of memory (R51). -/
abbrev Byte := BitVec 8

/-- A register number, 0 to 31: the 5-bit fields `rd`, `rs1`, `rs2` (R82). -/
abbrev RegNum := BitVec 5

/-- A CSR index, 0 to 4095: the 12-bit field `csr_addr` (R90). -/
abbrev CsrNum := BitVec 12

end Sys2Proof
end

