-- ==== Sys2Proof/Machine/Flags.lean ====
section
/-! DEFINITION. There are no status flags (spec/10_state.md R29: "no instruction records carry, overflow, zero
or sign anywhere"). What stands in their place are the comparisons, whose result is a register value (SLT, SLTU,
SLTI, SLTIU) or decides a branch directly. -/

namespace Sys2Proof.Machine

/-- `a <s b`, on the two's-complement readings (spec/00_scope.md R9). -/
def ltSigned (a b : Word) : Bool := decide (a.toInt < b.toInt)

/-- `a <u b`, on the unsigned readings (R9). -/
def ltUnsigned (a b : Word) : Bool := decide (a.toNat < b.toNat)

/-- `a >=s b`. -/
def geSigned (a b : Word) : Bool := decide (b.toInt ≤ a.toInt)

/-- `a >=u b`. -/
def geUnsigned (a b : Word) : Bool := decide (b.toNat ≤ a.toNat)

/-- `a == b`, all 32 bits. -/
def eqBits (a b : Word) : Bool := decide (a = b)

/-- `a != b`. -/
def neBits (a b : Word) : Bool := decide (a ≠ b)

/-- A comparison's register result: the 32-bit value 1 or 0 (spec/40_integer_register.md R124). -/
def boolWord (b : Bool) : Word := if b then 1 else 0

end Sys2Proof.Machine
end

