-- ==== Sys2Proof/Syntax.lean ====
section
/-! DEFINITION. The syntax of the machine: the 47 instructions of spec/00_scope.md R2, one constructor for
each row of spec/opcode_table.json, with the operands of spec/30_encoding.md R82 to R92. -/

namespace Sys2Proof

/-- An instruction with its operands. Immediates are the fields before extension: `imm` is the 12-bit
I or S immediate (R84, R85), `imm20` the field `word[31:12]` of the U format (R87), `shamt` the 5-bit shift
amount (R89), `offset` the 13-bit B or 21-bit J immediate with its forced bit 0 (R86, R88), `csr` and `uimm`
the CSR index and 5-bit immediate (R90). FENCE and FENCE_I have no operand: "Operands: none that matter"
(R220, R221). -/
inductive Instr where
  /-- ADDI (R141) -/
  | addi (rd : RegNum) (rs1 : RegNum) (imm : BitVec 12)
  /-- SLTI (R142) -/
  | slti (rd : RegNum) (rs1 : RegNum) (imm : BitVec 12)
  /-- SLTIU (R143) -/
  | sltiu (rd : RegNum) (rs1 : RegNum) (imm : BitVec 12)
  /-- XORI (R144) -/
  | xori (rd : RegNum) (rs1 : RegNum) (imm : BitVec 12)
  /-- ORI (R145) -/
  | ori (rd : RegNum) (rs1 : RegNum) (imm : BitVec 12)
  /-- ANDI (R146) -/
  | andi (rd : RegNum) (rs1 : RegNum) (imm : BitVec 12)
  /-- SLLI (R147) -/
  | slli (rd : RegNum) (rs1 : RegNum) (shamt : BitVec 5)
  /-- SRLI (R148) -/
  | srli (rd : RegNum) (rs1 : RegNum) (shamt : BitVec 5)
  /-- SRAI (R149) -/
  | srai (rd : RegNum) (rs1 : RegNum) (shamt : BitVec 5)
  /-- LUI (R150) -/
  | lui (rd : RegNum) (imm20 : BitVec 20)
  /-- AUIPC (R151) -/
  | auipc (rd : RegNum) (imm20 : BitVec 20)
  /-- ADD (R121) -/
  | add (rd : RegNum) (rs1 : RegNum) (rs2 : RegNum)
  /-- SUB (R122) -/
  | sub (rd : RegNum) (rs1 : RegNum) (rs2 : RegNum)
  /-- SLL (R123) -/
  | sll (rd : RegNum) (rs1 : RegNum) (rs2 : RegNum)
  /-- SLT (R124) -/
  | slt (rd : RegNum) (rs1 : RegNum) (rs2 : RegNum)
  /-- SLTU (R125) -/
  | sltu (rd : RegNum) (rs1 : RegNum) (rs2 : RegNum)
  /-- XOR (R126) -/
  | xor (rd : RegNum) (rs1 : RegNum) (rs2 : RegNum)
  /-- SRL (R127) -/
  | srl (rd : RegNum) (rs1 : RegNum) (rs2 : RegNum)
  /-- SRA (R128) -/
  | sra (rd : RegNum) (rs1 : RegNum) (rs2 : RegNum)
  /-- OR (R129) -/
  | or (rd : RegNum) (rs1 : RegNum) (rs2 : RegNum)
  /-- AND (R130) -/
  | and (rd : RegNum) (rs1 : RegNum) (rs2 : RegNum)
  /-- JAL (R182) -/
  | jal (rd : RegNum) (offset : BitVec 21)
  /-- JALR (R183) -/
  | jalr (rd : RegNum) (rs1 : RegNum) (imm : BitVec 12)
  /-- BEQ (R185) -/
  | beq (rs1 : RegNum) (rs2 : RegNum) (offset : BitVec 13)
  /-- BNE (R186) -/
  | bne (rs1 : RegNum) (rs2 : RegNum) (offset : BitVec 13)
  /-- BLT (R187) -/
  | blt (rs1 : RegNum) (rs2 : RegNum) (offset : BitVec 13)
  /-- BLTU (R188) -/
  | bltu (rs1 : RegNum) (rs2 : RegNum) (offset : BitVec 13)
  /-- BGE (R189) -/
  | bge (rs1 : RegNum) (rs2 : RegNum) (offset : BitVec 13)
  /-- BGEU (R190) -/
  | bgeu (rs1 : RegNum) (rs2 : RegNum) (offset : BitVec 13)
  /-- LB (R162) -/
  | lb (rd : RegNum) (rs1 : RegNum) (imm : BitVec 12)
  /-- LBU (R163) -/
  | lbu (rd : RegNum) (rs1 : RegNum) (imm : BitVec 12)
  /-- LH (R164) -/
  | lh (rd : RegNum) (rs1 : RegNum) (imm : BitVec 12)
  /-- LHU (R165) -/
  | lhu (rd : RegNum) (rs1 : RegNum) (imm : BitVec 12)
  /-- LW (R166) -/
  | lw (rd : RegNum) (rs1 : RegNum) (imm : BitVec 12)
  /-- SB (R167) -/
  | sb (rs2 : RegNum) (rs1 : RegNum) (imm : BitVec 12)
  /-- SH (R168) -/
  | sh (rs2 : RegNum) (rs1 : RegNum) (imm : BitVec 12)
  /-- SW (R169) -/
  | sw (rs2 : RegNum) (rs1 : RegNum) (imm : BitVec 12)
  /-- FENCE (R220) -/
  | fence
  /-- FENCE_I (R221) -/
  | fenceI
  /-- CSRRW (R202) -/
  | csrrw (rd : RegNum) (csr : CsrNum) (rs1 : RegNum)
  /-- CSRRS (R203) -/
  | csrrs (rd : RegNum) (csr : CsrNum) (rs1 : RegNum)
  /-- CSRRC (R204) -/
  | csrrc (rd : RegNum) (csr : CsrNum) (rs1 : RegNum)
  /-- CSRRWI (R205) -/
  | csrrwi (rd : RegNum) (csr : CsrNum) (uimm : BitVec 5)
  /-- CSRRSI (R206) -/
  | csrrsi (rd : RegNum) (csr : CsrNum) (uimm : BitVec 5)
  /-- CSRRCI (R207) -/
  | csrrci (rd : RegNum) (csr : CsrNum) (uimm : BitVec 5)
  /-- ECALL (R230) -/
  | ecall
  /-- EBREAK (R231) -/
  | ebreak
  deriving DecidableEq, Repr

/-- The six encoding formats (R81). -/
inductive Format where
  | r | i | s | b | u | j
  deriving DecidableEq, Repr

/-- "Each instruction maps to exactly one InstructionFormat" (R92). -/
def Instr.format : Instr → Format
  | .addi _ _ _ => .i
  | .slti _ _ _ => .i
  | .sltiu _ _ _ => .i
  | .xori _ _ _ => .i
  | .ori _ _ _ => .i
  | .andi _ _ _ => .i
  | .slli _ _ _ => .i
  | .srli _ _ _ => .i
  | .srai _ _ _ => .i
  | .lui _ _ => .u
  | .auipc _ _ => .u
  | .add _ _ _ => .r
  | .sub _ _ _ => .r
  | .sll _ _ _ => .r
  | .slt _ _ _ => .r
  | .sltu _ _ _ => .r
  | .xor _ _ _ => .r
  | .srl _ _ _ => .r
  | .sra _ _ _ => .r
  | .or _ _ _ => .r
  | .and _ _ _ => .r
  | .jal _ _ => .j
  | .jalr _ _ _ => .i
  | .beq _ _ _ => .b
  | .bne _ _ _ => .b
  | .blt _ _ _ => .b
  | .bltu _ _ _ => .b
  | .bge _ _ _ => .b
  | .bgeu _ _ _ => .b
  | .lb _ _ _ => .i
  | .lbu _ _ _ => .i
  | .lh _ _ _ => .i
  | .lhu _ _ _ => .i
  | .lw _ _ _ => .i
  | .sb _ _ _ => .s
  | .sh _ _ _ => .s
  | .sw _ _ _ => .s
  | .fence => .i
  | .fenceI => .i
  | .csrrw _ _ _ => .i
  | .csrrs _ _ _ => .i
  | .csrrc _ _ _ => .i
  | .csrrwi _ _ _ => .i
  | .csrrsi _ _ _ => .i
  | .csrrci _ _ _ => .i
  | .ecall => .i
  | .ebreak => .i

/-- The mnemonic the retire observer receives (R2, R108, R262), as spec/opcode_table.json spells it. -/
def Instr.mnemonic : Instr → String
  | .addi _ _ _ => "ADDI"
  | .slti _ _ _ => "SLTI"
  | .sltiu _ _ _ => "SLTIU"
  | .xori _ _ _ => "XORI"
  | .ori _ _ _ => "ORI"
  | .andi _ _ _ => "ANDI"
  | .slli _ _ _ => "SLLI"
  | .srli _ _ _ => "SRLI"
  | .srai _ _ _ => "SRAI"
  | .lui _ _ => "LUI"
  | .auipc _ _ => "AUIPC"
  | .add _ _ _ => "ADD"
  | .sub _ _ _ => "SUB"
  | .sll _ _ _ => "SLL"
  | .slt _ _ _ => "SLT"
  | .sltu _ _ _ => "SLTU"
  | .xor _ _ _ => "XOR"
  | .srl _ _ _ => "SRL"
  | .sra _ _ _ => "SRA"
  | .or _ _ _ => "OR"
  | .and _ _ _ => "AND"
  | .jal _ _ => "JAL"
  | .jalr _ _ _ => "JALR"
  | .beq _ _ _ => "BEQ"
  | .bne _ _ _ => "BNE"
  | .blt _ _ _ => "BLT"
  | .bltu _ _ _ => "BLTU"
  | .bge _ _ _ => "BGE"
  | .bgeu _ _ _ => "BGEU"
  | .lb _ _ _ => "LB"
  | .lbu _ _ _ => "LBU"
  | .lh _ _ _ => "LH"
  | .lhu _ _ _ => "LHU"
  | .lw _ _ _ => "LW"
  | .sb _ _ _ => "SB"
  | .sh _ _ _ => "SH"
  | .sw _ _ _ => "SW"
  | .fence => "FENCE"
  | .fenceI => "FENCE_I"
  | .csrrw _ _ _ => "CSRRW"
  | .csrrs _ _ _ => "CSRRS"
  | .csrrc _ _ _ => "CSRRC"
  | .csrrwi _ _ _ => "CSRRWI"
  | .csrrsi _ _ _ => "CSRRSI"
  | .csrrci _ _ _ => "CSRRCI"
  | .ecall => "ECALL"
  | .ebreak => "EBREAK"

/-- The families of the opcode table, as the files 40 to 46 of the spec group them; loads and stores, and jumps and
branches, are kept apart. -/
inductive Group where
  | integerRegister | integerImmediate | load | store | jump | branch | csr | fence | environment
  deriving DecidableEq, Repr

/-- The family of an instruction. -/
def Instr.group : Instr → Group
  | .addi _ _ _ => .integerImmediate
  | .slti _ _ _ => .integerImmediate
  | .sltiu _ _ _ => .integerImmediate
  | .xori _ _ _ => .integerImmediate
  | .ori _ _ _ => .integerImmediate
  | .andi _ _ _ => .integerImmediate
  | .slli _ _ _ => .integerImmediate
  | .srli _ _ _ => .integerImmediate
  | .srai _ _ _ => .integerImmediate
  | .lui _ _ => .integerImmediate
  | .auipc _ _ => .integerImmediate
  | .add _ _ _ => .integerRegister
  | .sub _ _ _ => .integerRegister
  | .sll _ _ _ => .integerRegister
  | .slt _ _ _ => .integerRegister
  | .sltu _ _ _ => .integerRegister
  | .xor _ _ _ => .integerRegister
  | .srl _ _ _ => .integerRegister
  | .sra _ _ _ => .integerRegister
  | .or _ _ _ => .integerRegister
  | .and _ _ _ => .integerRegister
  | .jal _ _ => .jump
  | .jalr _ _ _ => .jump
  | .beq _ _ _ => .branch
  | .bne _ _ _ => .branch
  | .blt _ _ _ => .branch
  | .bltu _ _ _ => .branch
  | .bge _ _ _ => .branch
  | .bgeu _ _ _ => .branch
  | .lb _ _ _ => .load
  | .lbu _ _ _ => .load
  | .lh _ _ _ => .load
  | .lhu _ _ _ => .load
  | .lw _ _ _ => .load
  | .sb _ _ _ => .store
  | .sh _ _ _ => .store
  | .sw _ _ _ => .store
  | .fence => .fence
  | .fenceI => .fence
  | .csrrw _ _ _ => .csr
  | .csrrs _ _ _ => .csr
  | .csrrc _ _ _ => .csr
  | .csrrwi _ _ _ => .csr
  | .csrrsi _ _ _ => .csr
  | .csrrci _ _ _ => .csr
  | .ecall => .environment
  | .ebreak => .environment

/-- The destination register field `rd`, for the instructions that have one (R81, R82): stores and branches have
none, and the fences and the environment instructions write no register (R220, R221, R230, R231). -/
def Instr.destination : Instr → Option RegNum
  | .addi rd _ _ => some rd
  | .slti rd _ _ => some rd
  | .sltiu rd _ _ => some rd
  | .xori rd _ _ => some rd
  | .ori rd _ _ => some rd
  | .andi rd _ _ => some rd
  | .slli rd _ _ => some rd
  | .srli rd _ _ => some rd
  | .srai rd _ _ => some rd
  | .lui rd _ => some rd
  | .auipc rd _ => some rd
  | .add rd _ _ => some rd
  | .sub rd _ _ => some rd
  | .sll rd _ _ => some rd
  | .slt rd _ _ => some rd
  | .sltu rd _ _ => some rd
  | .xor rd _ _ => some rd
  | .srl rd _ _ => some rd
  | .sra rd _ _ => some rd
  | .or rd _ _ => some rd
  | .and rd _ _ => some rd
  | .jal rd _ => some rd
  | .jalr rd _ _ => some rd
  | .beq _ _ _ => none
  | .bne _ _ _ => none
  | .blt _ _ _ => none
  | .bltu _ _ _ => none
  | .bge _ _ _ => none
  | .bgeu _ _ _ => none
  | .lb rd _ _ => some rd
  | .lbu rd _ _ => some rd
  | .lh rd _ _ => some rd
  | .lhu rd _ _ => some rd
  | .lw rd _ _ => some rd
  | .sb _ _ _ => none
  | .sh _ _ _ => none
  | .sw _ _ _ => none
  | .fence => none
  | .fenceI => none
  | .csrrw rd _ _ => some rd
  | .csrrs rd _ _ => some rd
  | .csrrc rd _ _ => some rd
  | .csrrwi rd _ _ => some rd
  | .csrrsi rd _ _ => some rd
  | .csrrci rd _ _ => some rd
  | .ecall => none
  | .ebreak => none

end Sys2Proof
end

