-- ==== Sys2Proof/Decode.lean ====
section
/-! DEFINITION. Decoding and encoding (spec/30_encoding.md). `decodeWord` is R93: total on all 2^32 words, a
function of the word alone, two-level dispatch on opcode and then funct3 and funct7; `decode` reads the four
little-endian bytes of a word (R52, R58). After them the encoder, and the table of match and mask values. -/

namespace Sys2Proof

/-- Why bytes are no instruction. -/
inductive DecodeReject where
  /-- IllegalInstruction (R103): the word is not one of the 47 instructions. -/
  | illegalInstruction (word : Word)
  /-- Fewer than four bytes are left: every instruction is 4 bytes long (R107). -/
  | truncated
  deriving DecidableEq, Repr

/-! ### Fields of a word (R82) and immediates (R84 to R90) -/

/-- `opcode = word[6:0]` (R82). -/
def opcode (word : Word) : BitVec 7 := word.extractLsb 6 0
/-- `funct3 = word[14:12]` (R82). -/
def funct3 (word : Word) : BitVec 3 := word.extractLsb 14 12
/-- `funct7 = word[31:25]` (R82). -/
def funct7 (word : Word) : BitVec 7 := word.extractLsb 31 25
/-- `rd = word[11:7]` (R82). -/
def rdField (word : Word) : RegNum := word.extractLsb 11 7
/-- `rs1 = word[19:15]` (R82); for the CSR immediate forms the same bits are `uimm` (R90). -/
def rs1Field (word : Word) : RegNum := word.extractLsb 19 15
/-- `rs2 = word[24:20]` (R82); for the immediate shifts the same bits are `shamt` (R89). -/
def rs2Field (word : Word) : RegNum := word.extractLsb 24 20
/-- The I immediate's field `word[31:20]` (R84); for the CSR instructions the same bits are `csr_addr` (R90). -/
def immIField (word : Word) : BitVec 12 := word.extractLsb 31 20
/-- The S immediate's field, `word[31:25]` the high part (R85). -/
def immSField (word : Word) : BitVec 12 := word.extractLsb 31 25 ++ word.extractLsb 11 7
/-- The B immediate with bit 0 forced to 0 (R86). -/
def offsetBField (word : Word) : BitVec 13 :=
  word.extractLsb 31 31 ++ word.extractLsb 7 7 ++ word.extractLsb 30 25 ++ word.extractLsb 11 8 ++ 0#1
/-- The U immediate's field `word[31:12]` (R87). -/
def immUField (word : Word) : BitVec 20 := word.extractLsb 31 12
/-- The J immediate with bit 0 forced to 0 (R88). -/
def offsetJField (word : Word) : BitVec 21 :=
  word.extractLsb 31 31 ++ word.extractLsb 19 12 ++ word.extractLsb 20 20 ++ word.extractLsb 30 21 ++ 0#1

/-! ### The second level of the dispatch -/

/-- The explicit default of every dispatch table (R103). -/
def illegal (word : Word) : Except DecodeReject Instr := .error (.illegalInstruction word)

/-- OP, opcode 0x33 (R95): funct3 and all seven bits of funct7. -/
def decodeOp (word : Word) : Except DecodeReject Instr :=
  let rd := rdField word
  let rs1 := rs1Field word
  let rs2 := rs2Field word
  if funct7 word = 0x00 then
    if funct3 word = 0b000 then .ok (.add rd rs1 rs2)
    else if funct3 word = 0b001 then .ok (.sll rd rs1 rs2)
    else if funct3 word = 0b010 then .ok (.slt rd rs1 rs2)
    else if funct3 word = 0b011 then .ok (.sltu rd rs1 rs2)
    else if funct3 word = 0b100 then .ok (.xor rd rs1 rs2)
    else if funct3 word = 0b101 then .ok (.srl rd rs1 rs2)
    else if funct3 word = 0b110 then .ok (.or rd rs1 rs2)
    else if funct3 word = 0b111 then .ok (.and rd rs1 rs2)
    else illegal word
  else if funct7 word = 0x20 then
    if funct3 word = 0b000 then .ok (.sub rd rs1 rs2)
    else if funct3 word = 0b101 then .ok (.sra rd rs1 rs2)
    else illegal word
  else illegal word

/-- OP-IMM, opcode 0x13 (R96); the shifts also test `word[31:25]` (R89). -/
def decodeOpImm (word : Word) : Except DecodeReject Instr :=
  let rd := rdField word
  let rs1 := rs1Field word
  let imm := immIField word
  let shamt := rs2Field word
  if funct3 word = 0b000 then .ok (.addi rd rs1 imm)
  else if funct3 word = 0b001 then
    if funct7 word = 0x00 then .ok (.slli rd rs1 shamt) else illegal word
  else if funct3 word = 0b010 then .ok (.slti rd rs1 imm)
  else if funct3 word = 0b011 then .ok (.sltiu rd rs1 imm)
  else if funct3 word = 0b100 then .ok (.xori rd rs1 imm)
  else if funct3 word = 0b101 then
    if funct7 word = 0x00 then .ok (.srli rd rs1 shamt)
    else if funct7 word = 0x20 then .ok (.srai rd rs1 shamt)
    else illegal word
  else if funct3 word = 0b110 then .ok (.ori rd rs1 imm)
  else if funct3 word = 0b111 then .ok (.andi rd rs1 imm)
  else illegal word

/-- LOAD, opcode 0x03 (R97). -/
def decodeLoad (word : Word) : Except DecodeReject Instr :=
  let rd := rdField word
  let rs1 := rs1Field word
  let imm := immIField word
  if funct3 word = 0b000 then .ok (.lb rd rs1 imm)
  else if funct3 word = 0b001 then .ok (.lh rd rs1 imm)
  else if funct3 word = 0b010 then .ok (.lw rd rs1 imm)
  else if funct3 word = 0b100 then .ok (.lbu rd rs1 imm)
  else if funct3 word = 0b101 then .ok (.lhu rd rs1 imm)
  else illegal word

/-- STORE, opcode 0x23 (R98). -/
def decodeStore (word : Word) : Except DecodeReject Instr :=
  let rs1 := rs1Field word
  let rs2 := rs2Field word
  let imm := immSField word
  if funct3 word = 0b000 then .ok (.sb rs2 rs1 imm)
  else if funct3 word = 0b001 then .ok (.sh rs2 rs1 imm)
  else if funct3 word = 0b010 then .ok (.sw rs2 rs1 imm)
  else illegal word

/-- BRANCH, opcode 0x63 (R99). -/
def decodeBranch (word : Word) : Except DecodeReject Instr :=
  let rs1 := rs1Field word
  let rs2 := rs2Field word
  let offset := offsetBField word
  if funct3 word = 0b000 then .ok (.beq rs1 rs2 offset)
  else if funct3 word = 0b001 then .ok (.bne rs1 rs2 offset)
  else if funct3 word = 0b100 then .ok (.blt rs1 rs2 offset)
  else if funct3 word = 0b101 then .ok (.bge rs1 rs2 offset)
  else if funct3 word = 0b110 then .ok (.bltu rs1 rs2 offset)
  else if funct3 word = 0b111 then .ok (.bgeu rs1 rs2 offset)
  else illegal word

/-- JALR, opcode 0x67: funct3 must be 000 (R100). -/
def decodeJalr (word : Word) : Except DecodeReject Instr :=
  if funct3 word = 0b000 then .ok (.jalr (rdField word) (rs1Field word) (immIField word))
  else illegal word

/-- MISC-MEM, opcode 0x0F (R101): every bit but opcode and funct3 is ignored. -/
def decodeMiscMem (word : Word) : Except DecodeReject Instr :=
  if funct3 word = 0b000 then .ok .fence
  else if funct3 word = 0b001 then .ok .fenceI
  else illegal word

/-- SYSTEM, opcode 0x73 (R102): for funct3 000 the whole word is compared. -/
def decodeSystem (word : Word) : Except DecodeReject Instr :=
  let rd := rdField word
  let csr := immIField word
  let rs1 := rs1Field word
  let uimm := rs1Field word
  if funct3 word = 0b000 then
    if word = 0x00000073 then .ok .ecall
    else if word = 0x00100073 then .ok .ebreak
    else illegal word
  else if funct3 word = 0b001 then .ok (.csrrw rd csr rs1)
  else if funct3 word = 0b010 then .ok (.csrrs rd csr rs1)
  else if funct3 word = 0b011 then .ok (.csrrc rd csr rs1)
  else if funct3 word = 0b101 then .ok (.csrrwi rd csr uimm)
  else if funct3 word = 0b110 then .ok (.csrrsi rd csr uimm)
  else if funct3 word = 0b111 then .ok (.csrrci rd csr uimm)
  else illegal word

/-! ### The decoder -/

/-- `decode(word)` of R93: the first level of the dispatch, on the opcode (R94). -/
def decodeWord (word : Word) : Except DecodeReject Instr :=
  if opcode word = 0x03 then decodeLoad word
  else if opcode word = 0x0F then decodeMiscMem word
  else if opcode word = 0x13 then decodeOpImm word
  else if opcode word = 0x17 then .ok (.auipc (rdField word) (immUField word))
  else if opcode word = 0x23 then decodeStore word
  else if opcode word = 0x33 then decodeOp word
  else if opcode word = 0x37 then .ok (.lui (rdField word) (immUField word))
  else if opcode word = 0x63 then decodeBranch word
  else if opcode word = 0x67 then decodeJalr word
  else if opcode word = 0x6F then .ok (.jal (rdField word) (offsetJField word))
  else if opcode word = 0x73 then decodeSystem word
  else illegal word

/-- The word whose little-endian bytes are given, lowest address first (R52). -/
def wordOfBytes (b0 b1 b2 b3 : Byte) : Word := b3 ++ b2 ++ b1 ++ b0

/-- The little-endian bytes of a word, lowest address first (R52). -/
def bytesOfWord (word : Word) : List Byte :=
  [word.extractLsb 7 0, word.extractLsb 15 8, word.extractLsb 23 16, word.extractLsb 31 24]

/-- The instruction at the head of a byte sequence, and the bytes after it (R80, R107: always four bytes). -/
def decode : List Byte → Except DecodeReject (Instr × List Byte)
  | b0 :: b1 :: b2 :: b3 :: rest =>
    match decodeWord (wordOfBytes b0 b1 b2 b3) with
    | .ok i => .ok (i, rest)
    | .error e => .error e
  | [] | [_] | [_, _] | [_, _, _] => .error .truncated

/-! ### The encoder -/

/-- R format (R81). -/
def encodeR (f7 : BitVec 7) (rs2 rs1 : RegNum) (f3 : BitVec 3) (rd : RegNum) (op : BitVec 7) : Word :=
  f7 ++ rs2 ++ rs1 ++ f3 ++ rd ++ op

/-- I format (R81, R84). -/
def encodeI (imm : BitVec 12) (rs1 : RegNum) (f3 : BitVec 3) (rd : RegNum) (op : BitVec 7) : Word :=
  imm ++ rs1 ++ f3 ++ rd ++ op

/-- S format (R81, R85). -/
def encodeS (imm : BitVec 12) (rs2 rs1 : RegNum) (f3 : BitVec 3) (op : BitVec 7) : Word :=
  imm.extractLsb 11 5 ++ rs2 ++ rs1 ++ f3 ++ imm.extractLsb 4 0 ++ op

/-- B format (R81, R86): `imm[12]`, `imm[10:5]`, rs2, rs1, funct3, `imm[4:1]`, `imm[11]`, opcode. -/
def encodeB (offset : BitVec 13) (rs2 rs1 : RegNum) (f3 : BitVec 3) (op : BitVec 7) : Word :=
  offset.extractLsb 12 12 ++ offset.extractLsb 10 5 ++ rs2 ++ rs1 ++ f3 ++
    offset.extractLsb 4 1 ++ offset.extractLsb 11 11 ++ op

/-- U format (R81, R87). -/
def encodeU (imm20 : BitVec 20) (rd : RegNum) (op : BitVec 7) : Word := imm20 ++ rd ++ op

/-- J format (R81, R88): `imm[20]`, `imm[10:1]`, `imm[11]`, `imm[19:12]`, rd, opcode. -/
def encodeJ (offset : BitVec 21) (rd : RegNum) (op : BitVec 7) : Word :=
  offset.extractLsb 20 20 ++ offset.extractLsb 10 1 ++ offset.extractLsb 11 11 ++
    offset.extractLsb 19 12 ++ rd ++ op

/-- The word of an instruction (R94 to R102). For FENCE, whose other bits are ignored, it is the conventional
word 0x0FF0000F, and for FENCE_I 0x0000100F (R101; DESIGN CHOICE, notes/assumptions/6.md: safe). -/
def encode : Instr → Word
  | .add rd rs1 rs2 => encodeR 0x00 rs2 rs1 0b000 rd 0x33
  | .sub rd rs1 rs2 => encodeR 0x20 rs2 rs1 0b000 rd 0x33
  | .sll rd rs1 rs2 => encodeR 0x00 rs2 rs1 0b001 rd 0x33
  | .slt rd rs1 rs2 => encodeR 0x00 rs2 rs1 0b010 rd 0x33
  | .sltu rd rs1 rs2 => encodeR 0x00 rs2 rs1 0b011 rd 0x33
  | .xor rd rs1 rs2 => encodeR 0x00 rs2 rs1 0b100 rd 0x33
  | .srl rd rs1 rs2 => encodeR 0x00 rs2 rs1 0b101 rd 0x33
  | .sra rd rs1 rs2 => encodeR 0x20 rs2 rs1 0b101 rd 0x33
  | .or rd rs1 rs2 => encodeR 0x00 rs2 rs1 0b110 rd 0x33
  | .and rd rs1 rs2 => encodeR 0x00 rs2 rs1 0b111 rd 0x33
  | .addi rd rs1 imm => encodeI imm rs1 0b000 rd 0x13
  | .slti rd rs1 imm => encodeI imm rs1 0b010 rd 0x13
  | .sltiu rd rs1 imm => encodeI imm rs1 0b011 rd 0x13
  | .xori rd rs1 imm => encodeI imm rs1 0b100 rd 0x13
  | .ori rd rs1 imm => encodeI imm rs1 0b110 rd 0x13
  | .andi rd rs1 imm => encodeI imm rs1 0b111 rd 0x13
  | .slli rd rs1 shamt => encodeR 0x00 shamt rs1 0b001 rd 0x13
  | .srli rd rs1 shamt => encodeR 0x00 shamt rs1 0b101 rd 0x13
  | .srai rd rs1 shamt => encodeR 0x20 shamt rs1 0b101 rd 0x13
  | .lui rd imm20 => encodeU imm20 rd 0x37
  | .auipc rd imm20 => encodeU imm20 rd 0x17
  | .jal rd offset => encodeJ offset rd 0x6F
  | .jalr rd rs1 imm => encodeI imm rs1 0b000 rd 0x67
  | .beq rs1 rs2 offset => encodeB offset rs2 rs1 0b000 0x63
  | .bne rs1 rs2 offset => encodeB offset rs2 rs1 0b001 0x63
  | .blt rs1 rs2 offset => encodeB offset rs2 rs1 0b100 0x63
  | .bltu rs1 rs2 offset => encodeB offset rs2 rs1 0b110 0x63
  | .bge rs1 rs2 offset => encodeB offset rs2 rs1 0b101 0x63
  | .bgeu rs1 rs2 offset => encodeB offset rs2 rs1 0b111 0x63
  | .lb rd rs1 imm => encodeI imm rs1 0b000 rd 0x03
  | .lbu rd rs1 imm => encodeI imm rs1 0b100 rd 0x03
  | .lh rd rs1 imm => encodeI imm rs1 0b001 rd 0x03
  | .lhu rd rs1 imm => encodeI imm rs1 0b101 rd 0x03
  | .lw rd rs1 imm => encodeI imm rs1 0b010 rd 0x03
  | .sb rs2 rs1 imm => encodeS imm rs2 rs1 0b000 0x23
  | .sh rs2 rs1 imm => encodeS imm rs2 rs1 0b001 0x23
  | .sw rs2 rs1 imm => encodeS imm rs2 rs1 0b010 0x23
  | .fence => 0x0FF0000F
  | .fenceI => 0x0000100F
  | .csrrw rd csr rs1 => encodeI csr rs1 0b001 rd 0x73
  | .csrrs rd csr rs1 => encodeI csr rs1 0b010 rd 0x73
  | .csrrc rd csr rs1 => encodeI csr rs1 0b011 rd 0x73
  | .csrrwi rd csr uimm => encodeI csr uimm 0b101 rd 0x73
  | .csrrsi rd csr uimm => encodeI csr uimm 0b110 rd 0x73
  | .csrrci rd csr uimm => encodeI csr uimm 0b111 rd 0x73
  | .ecall => 0x00000073
  | .ebreak => 0x00100073

/-- The bytes of an instruction as memory holds them, lowest address first (R52, R80). -/
def encodeBytes (i : Instr) : List Byte := bytesOfWord (encode i)

/-! ### The host's view of the decoder, and the opcode table -/

/-- The instruction the decoder reads from a row of spec/opcode_table.json whose bits are `w`: the word is laid
out as memory holds it, least significant byte first, bits above `nbits` zero, and given to `decode`. -/
def decodeTableWord (nbits w : Nat) : Option Instr :=
  match decode (bytesOfWord (BitVec.ofNat 32 (w % 2 ^ nbits))) with
  | .ok (i, _) => some i
  | .error _ => none

/-- A row of the opcode map: a word `w` is the row's instruction when `w & mask = bits`. -/
structure TableRow where
  /-- The value the spec calls the match. -/
  bits : Word
  mask : Word
  deriving DecidableEq, Repr

/-- The mask of the word bits that are not operands: opcode, funct3 and, where it selects, funct7; all of the
word for ECALL and EBREAK (R95 to R102). -/
def maskOp : Word := 0x0000007F
/-- opcode and funct3. -/
def maskOpF3 : Word := 0x0000707F
/-- opcode, funct3 and funct7. -/
def maskOpF3F7 : Word := 0xFE00707F
/-- the whole word. -/
def maskAll : Word := 0xFFFFFFFF

/-- The match and mask values R95 to R102 give the instruction, written out from those rules and not from
`decodeWord`: that the two agree on every word is a statement (Obligations.DecodeAgreesWithTheMatchAndMaskTable). -/
def tableRow : Instr → TableRow
  | .addi _ _ _ => ⟨0x00000013, maskOpF3⟩
  | .slti _ _ _ => ⟨0x00002013, maskOpF3⟩
  | .sltiu _ _ _ => ⟨0x00003013, maskOpF3⟩
  | .xori _ _ _ => ⟨0x00004013, maskOpF3⟩
  | .ori _ _ _ => ⟨0x00006013, maskOpF3⟩
  | .andi _ _ _ => ⟨0x00007013, maskOpF3⟩
  | .slli _ _ _ => ⟨0x00001013, maskOpF3F7⟩
  | .srli _ _ _ => ⟨0x00005013, maskOpF3F7⟩
  | .srai _ _ _ => ⟨0x40005013, maskOpF3F7⟩
  | .lui _ _ => ⟨0x00000037, maskOp⟩
  | .auipc _ _ => ⟨0x00000017, maskOp⟩
  | .add _ _ _ => ⟨0x00000033, maskOpF3F7⟩
  | .sub _ _ _ => ⟨0x40000033, maskOpF3F7⟩
  | .sll _ _ _ => ⟨0x00001033, maskOpF3F7⟩
  | .slt _ _ _ => ⟨0x00002033, maskOpF3F7⟩
  | .sltu _ _ _ => ⟨0x00003033, maskOpF3F7⟩
  | .xor _ _ _ => ⟨0x00004033, maskOpF3F7⟩
  | .srl _ _ _ => ⟨0x00005033, maskOpF3F7⟩
  | .sra _ _ _ => ⟨0x40005033, maskOpF3F7⟩
  | .or _ _ _ => ⟨0x00006033, maskOpF3F7⟩
  | .and _ _ _ => ⟨0x00007033, maskOpF3F7⟩
  | .jal _ _ => ⟨0x0000006F, maskOp⟩
  | .jalr _ _ _ => ⟨0x00000067, maskOpF3⟩
  | .beq _ _ _ => ⟨0x00000063, maskOpF3⟩
  | .bne _ _ _ => ⟨0x00001063, maskOpF3⟩
  | .blt _ _ _ => ⟨0x00004063, maskOpF3⟩
  | .bltu _ _ _ => ⟨0x00006063, maskOpF3⟩
  | .bge _ _ _ => ⟨0x00005063, maskOpF3⟩
  | .bgeu _ _ _ => ⟨0x00007063, maskOpF3⟩
  | .lb _ _ _ => ⟨0x00000003, maskOpF3⟩
  | .lbu _ _ _ => ⟨0x00004003, maskOpF3⟩
  | .lh _ _ _ => ⟨0x00001003, maskOpF3⟩
  | .lhu _ _ _ => ⟨0x00005003, maskOpF3⟩
  | .lw _ _ _ => ⟨0x00002003, maskOpF3⟩
  | .sb _ _ _ => ⟨0x00000023, maskOpF3⟩
  | .sh _ _ _ => ⟨0x00001023, maskOpF3⟩
  | .sw _ _ _ => ⟨0x00002023, maskOpF3⟩
  | .fence => ⟨0x0000000F, maskOpF3⟩
  | .fenceI => ⟨0x0000100F, maskOpF3⟩
  | .csrrw _ _ _ => ⟨0x00001073, maskOpF3⟩
  | .csrrs _ _ _ => ⟨0x00002073, maskOpF3⟩
  | .csrrc _ _ _ => ⟨0x00003073, maskOpF3⟩
  | .csrrwi _ _ _ => ⟨0x00005073, maskOpF3⟩
  | .csrrsi _ _ _ => ⟨0x00006073, maskOpF3⟩
  | .csrrci _ _ _ => ⟨0x00007073, maskOpF3⟩
  | .ecall => ⟨0x00000073, maskAll⟩
  | .ebreak => ⟨0x00100073, maskAll⟩

end Sys2Proof
end

