-- ==== Sys2Proof/Machine/Sparse.lean ====
section
/-! DEFINITION. Finite maps from numbers to values in one canonical form: a list of (key, value) pairs, keys
strictly rising, no value equal to the default `d` that an unlisted key reads as. The memory (default 0, keys
below MEM_SIZE) and the CSR bank (default 0, keys below 4096) are kept so. -/

namespace Sys2Proof.Machine

variable {α : Type} [DecidableEq α]

/-- The value at key `a`. -/
def sparseGet (d : α) : List (Nat × α) → Nat → α
  | [], _ => d
  | (k, v) :: rest, a => if a = k then v else sparseGet d rest a

/-- The map with value `v` at key `a`; writing `d` removes the entry. -/
def sparseSet (d : α) : List (Nat × α) → Nat → α → List (Nat × α)
  | [], a, v => if v = d then [] else [(a, v)]
  | (k, w) :: rest, a, v =>
    if a < k then (if v = d then (k, w) :: rest else (a, v) :: (k, w) :: rest)
    else if a = k then (if v = d then rest else (a, v) :: rest)
    else (k, w) :: sparseSet d rest a v

/-- The canonical form, for keys from `lo` up to and not including `hi`. -/
def sparseWf (d : α) (hi : Nat) : Nat → List (Nat × α) → Bool
  | _, [] => true
  | lo, (k, v) :: rest => decide (lo ≤ k) && decide (k < hi) && decide (v ≠ d) && sparseWf d hi (k + 1) rest

/-- The canonical map that holds `f a` at the `n` keys from `lo` on. -/
def sparseOfFun (d : α) (f : Nat → α) : Nat → Nat → List (Nat × α)
  | _, 0 => []
  | lo, n + 1 => if f lo = d then sparseOfFun d f (lo + 1) n else (lo, f lo) :: sparseOfFun d f (lo + 1) n

end Sys2Proof.Machine
end

