-- ==== Sys2Proof/Config.lean ====
section
/-! DEFINITION. What an implementation fixes (spec/00_scope.md R5): the memory capacity, and the two OPEN
functions of the reset (spec/10_state.md R39, decisions D8, D9 and D13). They are arguments of a launch
(Machine/Launch.lean), so a claim about launched machines quantifies over them. -/

namespace Sys2Proof

/-- The parameters of the hardware that R5 calls parameters. -/
structure Config where
  /-- MEM_SIZE, the memory capacity in bytes. -/
  memSize : Nat
  /-- `reg_init(i)`: the reset value of `x[i]`, `i` in 1 to 31 (never consulted for 0). -/
  regInit : RegNum → Word
  /-- `mem_init(addr)`: the reset content of the byte at `addr`, outside the image. -/
  memInit : Nat → Byte

namespace Config

/-- The value MEM_SIZE takes in the reference configuration: 16 KiB (R5, D13). -/
def referenceMemSize : Nat := 16384

/-- What R5 requires of MEM_SIZE: between 4 and 2^32, and a multiple of 4. -/
abbrev LegalMemSize (n : Nat) : Prop := 4 ≤ n ∧ n ≤ 2 ^ 32 ∧ n % 4 = 0

/-- The reference configuration with the all-zeros instance of `reg_init` and `mem_init`, which R39 calls
"one permitted instance" of each (DESIGN CHOICE, notes/assumptions/1.md and 2.md: unsafe). -/
def reference : Config where
  memSize := referenceMemSize
  regInit := fun _ => 0
  memInit := fun _ => 0

end Config

end Sys2Proof
end

