-- ==== Sys2Proof/Machine/State.lean ====
section
/-! DEFINITION. The state of the machine: the closed list of spec/10_state.md R20, as plain data, and its value
after reset (R39). -/

namespace Sys2Proof.Machine

/-- A fatal condition with the address it records (spec/60_exceptions.md R242). -/
inductive Condition where
  /-- Decode of a fetched word that is not one of the 47 instructions (R243). -/
  | illegalInstruction
  /-- A fetch, load or store that reaches outside memory; the pc for a fetch, else the effective address (R244). -/
  | outOfBounds (addr : Word)
  /-- A halfword or word access at an address that is not a multiple of its size (R245). -/
  | misalignedAccess (addr : Word)
  /-- A taken transfer to a target that is not a multiple of 4 (R247). -/
  | instructionAddressMisaligned (target : Word)
  deriving DecidableEq, Repr

/-- The record of a fatal condition (R248): the condition with its address, the pc of the offending instruction,
and the instruction word when the fetch succeeded. -/
structure FatalRecord where
  condition : Condition
  pc : Word
  word : Option Word
  deriving DecidableEq, Repr

/-- The run status latch (R37). -/
inductive Status where
  | running
  | fatal (record : FatalRecord)
  deriving DecidableEq, Repr

/-- The environment condition a retiring step may signal to the host (R256). -/
inductive EnvSignal where
  /-- The instruction was ECALL. -/
  | envCall
  /-- The instruction was EBREAK. -/
  | envBreak
  deriving DecidableEq, Repr

/-- `mem` of R20 and R36: a byte array of capacity `size` (MEM_SIZE; fixed, no operation changes it). `cells`
lists the bytes that are not 0, addresses strictly rising; an address in bounds that is not listed reads 0
(notes/assumptions/2.md and 3.md). -/
structure Memory where
  size : Nat
  cells : List Host.Cell
  deriving DecidableEq, Repr

/-- The state (R20). -/
structure State where
  /-- `x[1]` to `x[31]`, in order: entry `k` is `x[k+1]`. `x[0]` is hardwired to 0 and has no storage (R21, R22). -/
  x : Vector Word 31
  /-- The program counter (R25). -/
  pc : Word
  /-- The CSR bank: (index, value) pairs, indices strictly rising, no value 0; an index not listed reads 0 (R30, R31). -/
  csr : List (Nat × Word)
  /-- The memory (R36). -/
  mem : Memory
  /-- The run status (R37). -/
  status : Status
  /-- The model's own field: the signal attached to the result of the last step that retired (R241, R256). It is an
  output; nothing reads it (DESIGN CHOICE, notes/assumptions/4.md: safe). -/
  signal : Option EnvSignal
  deriving DecidableEq, Repr

/-- Why the machine stops with no successor state. -/
inductive Fault where
  /-- Raised by `step` alone, when `status` is already Fatal: "the core has no step" (R254, D18, U14 'stuck').
  Safe: the hardware takes no step there either. -/
  | noStepInFatal (record : FatalRecord)
  deriving DecidableEq, Repr

/-- Why the model gives no meaning. -/
inductive Refusal where
  /-- An arm of `exec` whose instruction has no meaning yet; no arm is one. Safe. -/
  | notModelled (mnemonic : String)
  /-- Raised by `launch`: the image is longer than MEM_SIZE (spec/70_reset_and_hazards.md R285, D19). Safe: the
  spec puts such a launch outside the contract. -/
  | imageTooLong
  /-- Raised by `launch`: MEM_SIZE is not a value R5 allows. Safe: no such hardware exists. -/
  | illegalMemSize
  deriving DecidableEq, Repr

/-- The machine after reset (R39, R280): pc 0, every CSR 0, Running; MEM_SIZE is the reference configuration's.
The spec leaves `x[1]` to `x[31]` and the memory open: here they are all zeros, which R39 calls "one permitted
instance" (DESIGN CHOICE, notes/assumptions/1.md and 2.md: unsafe). `State.init` is the same reset for
every `reg_init`, `mem_init` and image. -/
def State.reset : State where
  x := Vector.replicate 31 0
  pc := 0
  csr := []
  mem := { size := Config.referenceMemSize, cells := [] }
  status := .running
  signal := none

end Sys2Proof.Machine
end

