-- ==== Sys2Proof/Machine/Ops.lean ====
section
/-! DEFINITION. The named operations over registers, the CSR bank and memory (the primitives of
spec/00_scope.md R12), the retirement of an instruction, and `raise`, the one way a fatal condition is taken
(spec/60_exceptions.md R246). -/

namespace Sys2Proof.Machine

/-- What one step or one meaning answers. -/
abbrev Outcome := Host.Outcome State Fault Refusal

/-! ### General registers -/

/-- `x[i]`: `x[0]` is 0, always (spec/10_state.md R21). -/
def State.readReg (s : State) (r : RegNum) : Word :=
  if r = 0 then 0 else s.x[r.toNat - 1]'(by have := r.isLt; omega)

/-- `x[i] <- v`: a write to `x[0]` is discarded, here and nowhere else (R22, D1). -/
def State.writeReg (s : State) (r : RegNum) (v : Word) : State :=
  if r = 0 then s else { s with x := s.x.set (r.toNat - 1) v (by have := r.isLt; omega) }

/-! ### CSR bank -/

/-- `csr[a]`: the 32 bits last written, or 0; no side effect (R31). -/
def State.readCsr (s : State) (a : CsrNum) : Word := sparseGet 0 s.csr a.toNat

/-- `csr[a] <- v`: all 32 bits, and nothing else (R32). -/
def State.writeCsr (s : State) (a : CsrNum) (v : Word) : State :=
  { s with csr := sparseSet 0 s.csr a.toNat v }

/-- The canonical form of the bank: indices 0 to 4095, rising, no entry 0. -/
def State.csrWf (s : State) : Bool := sparseWf 0 4096 0 s.csr

/-! ### Memory -/

/-- The byte at an address, `mem[a]`; meaningful for `a < size`. -/
def Memory.byte (m : Memory) (a : Nat) : Byte := sparseGet 0 m.cells a

/-- `mem[a] <- v`. -/
def Memory.setByte (m : Memory) (a : Nat) (v : Byte) : Memory :=
  { m with cells := sparseSet 0 m.cells a v }

/-- The canonical form: addresses below `size`, strictly rising, no entry 0. -/
def Memory.wf (m : Memory) : Bool := sparseWf 0 m.size 0 m.cells

/-- The access sizes (spec/20_memory.md R60). -/
inductive Width where
  | byte | half | word
  deriving DecidableEq, Repr

/-- The number of bytes of an access: 1, 2 or 4. -/
def Width.bytes : Width → Nat
  | .byte => 1
  | .half => 2
  | .word => 4

/-- The number of bits of an access. -/
def Width.bits : Width → Nat
  | .byte => 8
  | .half => 16
  | .word => 32

/-- The little-endian value at `a`, "the low-order byte at the lowest address" (R52). -/
def Memory.read (m : Memory) (a : Nat) : (w : Width) → BitVec w.bits
  | .byte => m.byte a
  | .half => m.byte (a + 1) ++ m.byte a
  | .word => m.byte (a + 3) ++ m.byte (a + 2) ++ m.byte (a + 1) ++ m.byte a

/-- `mem[a+i] <- v[8i+7 : 8i]` for `i` in 0 to `n - 1` (R55). -/
def Memory.writeBytes (m : Memory) (a : Nat) (v : Word) : Nat → Memory
  | 0 => m
  | n + 1 => (m.writeBytes a v n).setByte (a + n) (v.extractLsb' (8 * n) 8)

/-- The tests of an access, in the order R54, R55 and R57 give them: alignment (R53, D3), then bounds, the sum
taken in unbounded integers (R56, D14). -/
def accessCondition (w : Width) (a : Word) (m : Memory) : Option Condition :=
  if a.toNat % w.bytes ≠ 0 then some (.misalignedAccess a)
  else if m.size < a.toNat + w.bytes then some (.outOfBounds a)
  else none

/-- `MemRead(a, n)` (R54). -/
def memRead (w : Width) (a : Word) (m : Memory) : Except Condition (BitVec w.bits) :=
  match accessCondition w a m with
  | some c => .error c
  | none => .ok (m.read a.toNat w)

/-- `MemWrite(a, n, v)` (R55): the low bits of `v`; if it raises, no byte is changed. -/
def memWrite (w : Width) (a : Word) (v : Word) (m : Memory) : Except Condition Memory :=
  match accessCondition w a m with
  | some c => .error c
  | none => .ok (m.writeBytes a.toNat v w.bytes)

/-- `Fetch(a)` (R58): a bounds test and no alignment test. -/
def fetch (a : Word) (m : Memory) : Except Condition Word :=
  if m.size < a.toNat + 4 then .error (.outOfBounds a) else .ok (m.read a.toNat .word)

/-- The state with the memory replaced. -/
def State.withMem (s : State) (m : Memory) : State := { s with mem := m }

/-- The word the step at the pc fetches, when the fetch succeeds. -/
def State.fetchedWord (s : State) : Option Word := (fetch s.pc s.mem).toOption

/-- Fetch and decode of the instruction at the pc (spec/60_exceptions.md R240, R243, R244, R250). -/
def State.fetchDecode (s : State) : Except Condition Instr :=
  match fetch s.pc s.mem with
  | .error c => .error c
  | .ok w =>
    match decodeWord w with
    | .error _ => .error .illegalInstruction
    | .ok i => .ok i

/-! ### Taking a fatal condition, and retiring -/

/-- The record of condition `c` raised by the instruction at the pc (R248): the word is absent when the fetch
itself failed (R244). -/
def State.fatalRecord (s : State) (c : Condition) : FatalRecord :=
  { condition := c, pc := s.pc, word := s.fetchedWord }

/-- The state of the machine that condition `c` stops: only `status` differs (R241, R246). -/
def State.halt (s : State) (c : Condition) : State := { s with status := .fatal (s.fatalRecord c) }

/-- `raise c` (R246): nothing is changed but `status <- Fatal(record)`; the pc stays at the offending instruction.
There is no trap entry (R252): no register saves anything, no handler is entered. There is no return from it
either (R253): nothing but reset leaves Fatal (R254). -/
def raise (c : Condition) (s : State) : Outcome := .next (s.halt c)

/-- The instruction retires: the next pc is set, exactly once (R26), and the step's result carries `signal`
(R241, R256). -/
def State.retireWith (s : State) (next : Word) (signal : Option EnvSignal) : State :=
  { s with pc := next, signal := signal }

/-- The instruction retires with no signal. -/
def State.retire (s : State) (next : Word) : State := s.retireWith next none

/-- `pc + 4`, modulo 2^32 (R26, R28). -/
def State.nextPc (s : State) : Word := s.pc + 4

/-- The end of every computational instruction: `x[rd] <- v; pc <- pc + 4` (R120, R140). -/
def writeBack (rd : RegNum) (v : Word) (s : State) : Outcome :=
  .next ((s.writeReg rd v).retire s.nextPc)

/-- The end of a load: `x[rd] <- extend(MemRead(ea, n)); pc <- pc + 4`, or the condition the access raises
(spec/42_load_store.md R160, R161). -/
def loadInto (rd : RegNum) (w : Width) (ea : Word) (extend : BitVec w.bits → Word) (s : State) : Outcome :=
  match memRead w ea s.mem with
  | .error c => raise c s
  | .ok v => writeBack rd (extend v) s

/-- The end of a store: `MemWrite(ea, n, v); pc <- pc + 4`, or the condition the access raises (R160, R161). -/
def storeFrom (w : Width) (ea : Word) (v : Word) (s : State) : Outcome :=
  match memWrite w ea v s.mem with
  | .error c => raise c s
  | .ok m => .next ((s.withMem m).retire s.nextPc)

/-- A taken transfer to `target` from `s`, where `linked` is `s` with the link register written (`s` itself for
a branch): a target that is not a multiple of 4 raises and writes nothing (spec/43_control_transfer.md R180, D4). -/
def transfer (target : Word) (linked : State) (s : State) : Outcome :=
  if target.toNat % 4 ≠ 0 then raise (.instructionAddressMisaligned target) s
  else .next (linked.retire target)

/-- The common form of a branch (R184): `target` when `taken`, else `pc + 4`. -/
def branchTo (taken : Bool) (target : Word) (s : State) : Outcome :=
  if taken then transfer target s s else .next (s.retire s.nextPc)

/-- The common form of a CSR instruction (spec/44_csr.md R200): the old CSR value and the source are read first,
then `csr[a] <- update old`, `x[rd] <- old`, `pc <- pc + 4`. -/
def csrAccess (rd : RegNum) (a : CsrNum) (update : Word → Word) (s : State) : Outcome :=
  let old := s.readCsr a
  .next (((s.writeCsr a (update old)).writeReg rd old).retire s.nextPc)

end Sys2Proof.Machine
end

