-- ==== Sys2Proof/Machine/Operands.lean ====
section
/-! DEFINITION. The operand forms: the 32-bit values of the immediates (spec/30_encoding.md R84 to R90), the
extension of loaded values (spec/00_scope.md R10), effective addresses and transfer targets. -/

namespace Sys2Proof.Machine

/-- `immI` and `immS`: the 12-bit field sign-extended (R84, R85). -/
def imm12 (imm : BitVec 12) : Word := imm.signExtend 32

/-- `immB`: the 13-bit offset sign-extended (R86). -/
def immB (offset : BitVec 13) : Word := offset.signExtend 32

/-- `immJ`: the 21-bit offset sign-extended (R88). -/
def immJ (offset : BitVec 21) : Word := offset.signExtend 32

/-- `immU = {word[31:12], 12'b0}` (R87). -/
def immU (imm20 : BitVec 20) : Word := imm20 ++ 0#12

/-- `zext_5(uimm)` of the CSR immediate forms (R90). -/
def zextUimm (uimm : BitVec 5) : Word := uimm.zeroExtend 32

/-- `sext_N` of a loaded value (R10). -/
def sextLoad {n : Nat} (v : BitVec n) : Word := v.signExtend 32

/-- `zext_N` of a loaded value (R10). -/
def zextLoad {n : Nat} (v : BitVec n) : Word := v.zeroExtend 32

/-- The shift amount of SLL, SRL and SRA: `x[rs2][4:0]` (spec/40_integer_register.md R123). -/
def regShamt (v : Word) : BitVec 5 := v.extractLsb 4 0

/-- `ea = x[rs1] + imm`, modulo 2^32 (spec/42_load_store.md R160). -/
def State.effectiveAddress (s : State) (rs1 : RegNum) (imm : BitVec 12) : Word := s.readReg rs1 + imm12 imm

/-- The access a load or store makes, its width (spec/20_memory.md R60) and effective address; none for the other
instructions. -/
def State.dataAccess (s : State) : Instr → Option (Width × Word)
  | .lb _ rs1 imm | .lbu _ rs1 imm | .sb _ rs1 imm => some (.byte, s.effectiveAddress rs1 imm)
  | .lh _ rs1 imm | .lhu _ rs1 imm | .sh _ rs1 imm => some (.half, s.effectiveAddress rs1 imm)
  | .lw _ rs1 imm | .sw _ rs1 imm => some (.word, s.effectiveAddress rs1 imm)
  | .add _ _ _ | .sub _ _ _ | .sll _ _ _ | .slt _ _ _ | .sltu _ _ _ => none
  | .xor _ _ _ | .srl _ _ _ | .sra _ _ _ | .or _ _ _ | .and _ _ _ => none
  | .addi _ _ _ | .slti _ _ _ | .sltiu _ _ _ | .xori _ _ _ | .ori _ _ _ | .andi _ _ _ => none
  | .slli _ _ _ | .srli _ _ _ | .srai _ _ _ | .lui _ _ | .auipc _ _ => none
  | .jal _ _ | .jalr _ _ _ => none
  | .beq _ _ _ | .bne _ _ _ | .blt _ _ _ | .bltu _ _ _ | .bge _ _ _ | .bgeu _ _ _ => none
  | .fence | .fenceI | .ecall | .ebreak => none
  | .csrrw _ _ _ | .csrrs _ _ _ | .csrrc _ _ _ | .csrrwi _ _ _ | .csrrsi _ _ _ | .csrrci _ _ _ => none

/-- JAL's target `pc + immJ` (spec/43_control_transfer.md R182). -/
def State.jalTarget (s : State) (offset : BitVec 21) : Word := s.pc + immJ offset

/-- JALR's target `(x[rs1] + immI) & 0xFFFFFFFE` (R183). -/
def State.jalrTarget (s : State) (rs1 : RegNum) (imm : BitVec 12) : Word :=
  (s.readReg rs1 + imm12 imm) &&& 0xFFFFFFFE

/-- A branch's target `pc + immB` (R184). -/
def State.branchTarget (s : State) (offset : BitVec 13) : Word := s.pc + immB offset

/-- `a << n`: zeros enter at bit 0 (R11). -/
def shiftLeft (a : Word) (n : BitVec 5) : Word := a <<< n.toNat

/-- `a >>u n`: zeros enter at bit 31 (R11). -/
def shiftRightLogical (a : Word) (n : BitVec 5) : Word := a >>> n.toNat

/-- `a >>s n`: copies of `a[31]` enter at bit 31 (R11). -/
def shiftRightArith (a : Word) (n : BitVec 5) : Word := a.sshiftRight n.toNat

end Sys2Proof.Machine
end

