-- ==== Sys2Proof/Machine/ControlTransfer.lean ====
section
/-! DEFINITION. Jumps and branches (spec/43_control_transfer.md R182 to R190). There are no delay slots (R181). -/

namespace Sys2Proof.Machine

/-- R182: the link is `pc + 4`. -/
def execJal (rd : RegNum) (offset : BitVec 21) (s : State) : Outcome :=
  transfer (s.jalTarget offset) (s.writeReg rd s.nextPc) s

/-- R183: the target uses the old `x[rs1]`, also when `rd = rs1` (D2). -/
def execJalr (rd rs1 : RegNum) (imm : BitVec 12) (s : State) : Outcome :=
  transfer (s.jalrTarget rs1 imm) (s.writeReg rd s.nextPc) s

/-- R185. -/
def execBeq (rs1 rs2 : RegNum) (offset : BitVec 13) (s : State) : Outcome :=
  branchTo (eqBits (s.readReg rs1) (s.readReg rs2)) (s.branchTarget offset) s

/-- R186. -/
def execBne (rs1 rs2 : RegNum) (offset : BitVec 13) (s : State) : Outcome :=
  branchTo (neBits (s.readReg rs1) (s.readReg rs2)) (s.branchTarget offset) s

/-- R187. -/
def execBlt (rs1 rs2 : RegNum) (offset : BitVec 13) (s : State) : Outcome :=
  branchTo (ltSigned (s.readReg rs1) (s.readReg rs2)) (s.branchTarget offset) s

/-- R188. -/
def execBltu (rs1 rs2 : RegNum) (offset : BitVec 13) (s : State) : Outcome :=
  branchTo (ltUnsigned (s.readReg rs1) (s.readReg rs2)) (s.branchTarget offset) s

/-- R189. -/
def execBge (rs1 rs2 : RegNum) (offset : BitVec 13) (s : State) : Outcome :=
  branchTo (geSigned (s.readReg rs1) (s.readReg rs2)) (s.branchTarget offset) s

/-- R190. -/
def execBgeu (rs1 rs2 : RegNum) (offset : BitVec 13) (s : State) : Outcome :=
  branchTo (geUnsigned (s.readReg rs1) (s.readReg rs2)) (s.branchTarget offset) s

end Sys2Proof.Machine
end

