-- ==== Sys2Proof/Machine/Csr.lean ====
section
/-! DEFINITION. The CSR instructions (spec/44_csr.md R202 to R207). Every index is readable and writable plain
storage (spec/10_state.md R30, R33), so reading and writing always, also for `rd = 0` or a zero source, gives the
state R201 asks for. -/

namespace Sys2Proof.Machine

/-- R202. -/
def execCsrrw (rd : RegNum) (csr : CsrNum) (rs1 : RegNum) (s : State) : Outcome :=
  csrAccess rd csr (fun _ => s.readReg rs1) s

/-- R203. -/
def execCsrrs (rd : RegNum) (csr : CsrNum) (rs1 : RegNum) (s : State) : Outcome :=
  csrAccess rd csr (fun old => old ||| s.readReg rs1) s

/-- R204. -/
def execCsrrc (rd : RegNum) (csr : CsrNum) (rs1 : RegNum) (s : State) : Outcome :=
  csrAccess rd csr (fun old => old &&& ~~~(s.readReg rs1)) s

/-- R205. -/
def execCsrrwi (rd : RegNum) (csr : CsrNum) (uimm : BitVec 5) (s : State) : Outcome :=
  csrAccess rd csr (fun _ => zextUimm uimm) s

/-- R206. -/
def execCsrrsi (rd : RegNum) (csr : CsrNum) (uimm : BitVec 5) (s : State) : Outcome :=
  csrAccess rd csr (fun old => old ||| zextUimm uimm) s

/-- R207. -/
def execCsrrci (rd : RegNum) (csr : CsrNum) (uimm : BitVec 5) (s : State) : Outcome :=
  csrAccess rd csr (fun old => old &&& ~~~(zextUimm uimm)) s

end Sys2Proof.Machine
end

