-- ==== Sys2Proof/Machine/Environment.lean ====
section
/-! DEFINITION. ECALL and EBREAK (spec/46_environment.md): each retires, with its signal attached to the step's
result; they are not errors, save nothing and go nowhere (spec/60_exceptions.md R252, R256). The pc after them is
`pc + 4` by R230 and R231 (D5). -/

namespace Sys2Proof.Machine

/-- R230. -/
def execEcall (s : State) : Outcome := .next (s.retireWith s.nextPc (some .envCall))

/-- R231. -/
def execEbreak (s : State) : Outcome := .next (s.retireWith s.nextPc (some .envBreak))

end Sys2Proof.Machine
end

