-- ==== Sys2Proof/Machine/Fence.lean ====
section
/-! DEFINITION. The memory-ordering instructions (spec/45_fence.md): "no architectural state change in this
single-hart model beyond advancing pc += 4", since every access is already complete and in program order
(spec/20_memory.md R65 to R67). -/

namespace Sys2Proof.Machine

/-- R220. -/
def execFence (s : State) : Outcome := .next (s.retire s.nextPc)

/-- R221. -/
def execFenceI (s : State) : Outcome := .next (s.retire s.nextPc)

end Sys2Proof.Machine
end

