-- ==== Sys2Proof/Machine/IntegerImmediate.lean ====
section
/-! DEFINITION. The register-immediate instructions, LUI and AUIPC (spec/41_integer_immediate.md R141 to R151).
The 12-bit immediate is sign-extended for all of them, SLTIU and the logical ones too (R140). -/

namespace Sys2Proof.Machine

/-- R141. -/
def execAddi (rd rs1 : RegNum) (imm : BitVec 12) (s : State) : Outcome :=
  writeBack rd (s.readReg rs1 + imm12 imm) s

/-- R142. -/
def execSlti (rd rs1 : RegNum) (imm : BitVec 12) (s : State) : Outcome :=
  writeBack rd (boolWord (ltSigned (s.readReg rs1) (imm12 imm))) s

/-- R143: sign-extended first, then compared unsigned. -/
def execSltiu (rd rs1 : RegNum) (imm : BitVec 12) (s : State) : Outcome :=
  writeBack rd (boolWord (ltUnsigned (s.readReg rs1) (imm12 imm))) s

/-- R144. -/
def execXori (rd rs1 : RegNum) (imm : BitVec 12) (s : State) : Outcome :=
  writeBack rd (s.readReg rs1 ^^^ imm12 imm) s

/-- R145. -/
def execOri (rd rs1 : RegNum) (imm : BitVec 12) (s : State) : Outcome :=
  writeBack rd (s.readReg rs1 ||| imm12 imm) s

/-- R146. -/
def execAndi (rd rs1 : RegNum) (imm : BitVec 12) (s : State) : Outcome :=
  writeBack rd (s.readReg rs1 &&& imm12 imm) s

/-- R147. -/
def execSlli (rd rs1 : RegNum) (shamt : BitVec 5) (s : State) : Outcome :=
  writeBack rd (shiftLeft (s.readReg rs1) shamt) s

/-- R148. -/
def execSrli (rd rs1 : RegNum) (shamt : BitVec 5) (s : State) : Outcome :=
  writeBack rd (shiftRightLogical (s.readReg rs1) shamt) s

/-- R149. -/
def execSrai (rd rs1 : RegNum) (shamt : BitVec 5) (s : State) : Outcome :=
  writeBack rd (shiftRightArith (s.readReg rs1) shamt) s

/-- R150. -/
def execLui (rd : RegNum) (imm20 : BitVec 20) (s : State) : Outcome := writeBack rd (immU imm20) s

/-- R151: the pc added is the address of this instruction. -/
def execAuipc (rd : RegNum) (imm20 : BitVec 20) (s : State) : Outcome := writeBack rd (s.pc + immU imm20) s

end Sys2Proof.Machine
end

