-- ==== Sys2Proof/Machine/IntegerRegister.lean ====
section
/-! DEFINITION. The register-register instructions (spec/40_integer_register.md R121 to R130). Both sources are
read before `x[rd]` is written (R120). -/

namespace Sys2Proof.Machine

/-- R121: the sum modulo 2^32. -/
def execAdd (rd rs1 rs2 : RegNum) (s : State) : Outcome := writeBack rd (s.readReg rs1 + s.readReg rs2) s

/-- R122: the difference modulo 2^32. -/
def execSub (rd rs1 rs2 : RegNum) (s : State) : Outcome := writeBack rd (s.readReg rs1 - s.readReg rs2) s

/-- R123. -/
def execSll (rd rs1 rs2 : RegNum) (s : State) : Outcome :=
  writeBack rd (shiftLeft (s.readReg rs1) (regShamt (s.readReg rs2))) s

/-- R124. -/
def execSlt (rd rs1 rs2 : RegNum) (s : State) : Outcome :=
  writeBack rd (boolWord (ltSigned (s.readReg rs1) (s.readReg rs2))) s

/-- R125. -/
def execSltu (rd rs1 rs2 : RegNum) (s : State) : Outcome :=
  writeBack rd (boolWord (ltUnsigned (s.readReg rs1) (s.readReg rs2))) s

/-- R126. -/
def execXor (rd rs1 rs2 : RegNum) (s : State) : Outcome := writeBack rd (s.readReg rs1 ^^^ s.readReg rs2) s

/-- R127. -/
def execSrl (rd rs1 rs2 : RegNum) (s : State) : Outcome :=
  writeBack rd (shiftRightLogical (s.readReg rs1) (regShamt (s.readReg rs2))) s

/-- R128. -/
def execSra (rd rs1 rs2 : RegNum) (s : State) : Outcome :=
  writeBack rd (shiftRightArith (s.readReg rs1) (regShamt (s.readReg rs2))) s

/-- R129. -/
def execOr (rd rs1 rs2 : RegNum) (s : State) : Outcome := writeBack rd (s.readReg rs1 ||| s.readReg rs2) s

/-- R130. -/
def execAnd (rd rs1 rs2 : RegNum) (s : State) : Outcome := writeBack rd (s.readReg rs1 &&& s.readReg rs2) s

end Sys2Proof.Machine
end

