-- ==== Sys2Proof/Machine/LoadStore.lean ====
section
/-! DEFINITION. Loads and stores (spec/42_load_store.md R162 to R169). -/

namespace Sys2Proof.Machine

/-- R162: sign-extended byte. -/
def execLb (rd rs1 : RegNum) (imm : BitVec 12) (s : State) : Outcome :=
  loadInto rd .byte (s.effectiveAddress rs1 imm) sextLoad s

/-- R163: zero-extended byte. -/
def execLbu (rd rs1 : RegNum) (imm : BitVec 12) (s : State) : Outcome :=
  loadInto rd .byte (s.effectiveAddress rs1 imm) zextLoad s

/-- R164: sign-extended halfword. -/
def execLh (rd rs1 : RegNum) (imm : BitVec 12) (s : State) : Outcome :=
  loadInto rd .half (s.effectiveAddress rs1 imm) sextLoad s

/-- R165: zero-extended halfword. -/
def execLhu (rd rs1 : RegNum) (imm : BitVec 12) (s : State) : Outcome :=
  loadInto rd .half (s.effectiveAddress rs1 imm) zextLoad s

/-- R166: the word, "all 32 bits, no extension". -/
def execLw (rd rs1 : RegNum) (imm : BitVec 12) (s : State) : Outcome :=
  loadInto rd .word (s.effectiveAddress rs1 imm) id s

/-- R167: the low byte of `x[rs2]`. -/
def execSb (rs2 rs1 : RegNum) (imm : BitVec 12) (s : State) : Outcome :=
  storeFrom .byte (s.effectiveAddress rs1 imm) (s.readReg rs2) s

/-- R168: the low halfword of `x[rs2]`. -/
def execSh (rs2 rs1 : RegNum) (imm : BitVec 12) (s : State) : Outcome :=
  storeFrom .half (s.effectiveAddress rs1 imm) (s.readReg rs2) s

/-- R169: the word `x[rs2]`. -/
def execSw (rs2 rs1 : RegNum) (imm : BitVec 12) (s : State) : Outcome :=
  storeFrom .word (s.effectiveAddress rs1 imm) (s.readReg rs2) s

end Sys2Proof.Machine
end

