-- ==== Sys2Proof/Machine/Launch.lean ====
section
/-! DEFINITION. Reset and image load, with the OPEN parameters as arguments (spec/70_reset_and_hazards.md R280,
R281, R284, R285; spec/10_state.md R39), and the placing of one instruction at the pc. -/

namespace Sys2Proof.Machine

/-- The reset content of the byte at `a`: byte `a` of the image where the image reaches, else `mem_init(a)`
(R39, R284, R285). -/
def initByte (memInit : Nat → Byte) (image : List Byte) (a : Nat) : Byte := image[a]?.getD (memInit a)

/-- The memory after reset and image load. -/
def Memory.init (size : Nat) (memInit : Nat → Byte) (image : List Byte) : Memory :=
  { size := size, cells := sparseOfFun 0 (initByte memInit image) 0 size }

/-- Reset with configuration `c`, then the load of `image` at address 0 (R280, R284): `x[i] = reg_init(i)`,
pc 0, every CSR 0, Running. -/
def State.init (c : Config) (image : List Byte) : State where
  x := Vector.ofFn fun k : Fin 31 => c.regInit (BitVec.ofNat 5 (k.val + 1))
  pc := 0
  csr := []
  mem := Memory.init c.memSize c.memInit image
  status := .running
  signal := none

/-- A launch: refused when MEM_SIZE is not one R5 allows, or when the image is longer than memory (R285, D19). -/
def launch (c : Config) (image : List Byte) : Outcome :=
  if Config.LegalMemSize c.memSize then
    if image.length ≤ c.memSize then .next (State.init c image) else .refused .imageTooLong
  else .refused .illegalMemSize

/-- Where a fetch takes place: the pc, or address 0 if no fetch is possible at the pc. -/
def State.fetchablePc (s : State) : Word := if s.mem.size < s.pc.toNat + 4 then 0 else s.pc

/-- The state in which the word `w` stands where the next step fetches, and the next step is taken. -/
def State.placeWord (s : State) (w : Word) : State :=
  { s with
    pc := s.fetchablePc
    mem := s.mem.writeBytes s.fetchablePc.toNat w 4
    status := .running }

end Sys2Proof.Machine
end

