-- ==== Sys2Proof/Machine/Step.lean ====
section
/-! DEFINITION. One step (spec/60_exceptions.md R240): fetch, decode, execute; a condition that any part raises
is taken by `raise`. In Fatal there is no step (R254). -/

namespace Sys2Proof.Machine

/-- `Step()` of R240. -/
def step (s : State) : Host.Outcome State Fault Refusal :=
  match s.status with
  | .fatal record => .fault (.noStepInFatal record)
  | .running =>
    match s.fetchDecode with
    | .error c => raise c s
    | .ok i => exec i s

/-- The state in which the instruction whose bits are `w` stands where `step` fetches next: the four bytes at the
pc, least significant first, bits above `nbits` zero. -/
def State.withFetchWord (s : State) (nbits w : Nat) : State := s.placeWord (BitVec.ofNat 32 (w % 2 ^ nbits))

end Sys2Proof.Machine
end

