-- ==== Sys2Proof/Machine/Harness.lean ====
section
/-! DEFINITION. What the host sees and does: the step result (spec/60_exceptions.md R241), the retire observer
(R262), and the run protocol of the document's harness (spec/70_reset_and_hazards.md R288 to R293). Nothing here
changes what a step does. -/

namespace Sys2Proof.Machine

/-- The result of a step (R241). -/
inductive StepResult where
  | retired
  | retiredEnvCall
  | retiredEnvBreak
  | fatal (record : FatalRecord)
  deriving DecidableEq, Repr

/-- The result of the step that led to this state (R241). -/
def State.stepResult (s : State) : StepResult :=
  match s.status with
  | .fatal record => .fatal record
  | .running =>
    match s.signal with
    | none => .retired
    | some .envCall => .retiredEnvCall
    | some .envBreak => .retiredEnvBreak

/-- What the retire observer receives (R262). -/
structure RetireLine where
  /-- The pc before the step. -/
  pc : Word
  word : Word
  mnemonic : String
  deriving DecidableEq, Repr

/-- The observer's line for the step taken in `s`; none when no instruction retires (R246, R262). -/
def retireLine (s : State) : Option RetireLine :=
  match step s, s.fetchedWord, s.fetchDecode with
  | .next t, some w, .ok i =>
    if t.status = .running then some { pc := s.pc, word := w, mnemonic := i.mnemonic } else none
  | _, _, _ => none

/-- How a run stands under the document's harness (R288 to R293). -/
inductive RunResult where
  /-- The terminating ECALL step retired with `x[10] = 0` (R290). -/
  | pass (final : State)
  /-- The terminating ECALL step retired with `x[10] ≠ 0` (R290). -/
  | fail (final : State)
  /-- A step returned Fatal: neither pass nor fail (R291). -/
  | fatal (record : FatalRecord) (final : State)
  /-- The host asked for a step that the core does not take (R254). -/
  | noStep (final : State)
  /-- The fuel is spent: the run has not ended yet (R293). -/
  | unfinished (current : State)
  deriving DecidableEq, Repr

/-- The ECALL word the harness tests for (R288). -/
def ecallWord : Word := 0x00000073

/-- The loop of R288 for at most `fuel` steps: the check is on the word fetched before the step, and the step that
executes it still occurs. -/
def runProtocol : Nat → State → RunResult
  | 0, s => .unfinished s
  | fuel + 1, s =>
    match step s with
    | .next t =>
      match t.status with
      | .fatal record => .fatal record t
      | .running =>
        if s.fetchedWord = some ecallWord then
          if t.readReg 10 = 0 then .pass t else .fail t
        else runProtocol fuel t
    | .fault _ => .noStep s
    | .refused _ => .noStep s

end Sys2Proof.Machine
end

