-- ==== Sys2Proof/Safety.lean ====
section
/-! DEFINITION. The terms claims are stated in: what an instruction leaves when it retires or is stopped, what a
well-formed state is, and what a safe run is. -/

namespace Sys2Proof.Machine

/-! ### What is the same in two states -/

/-- Every general register reads the same. -/
def SameRegs (s t : State) : Prop := ∀ r, t.readReg r = s.readReg r

/-- Every CSR reads the same. -/
def SameCsrs (s t : State) : Prop := ∀ a, t.readCsr a = s.readCsr a

/-- Memory has the same capacity and every byte reads the same. -/
def SameMem (s t : State) : Prop := t.mem.size = s.mem.size ∧ ∀ a, t.mem.byte a = s.mem.byte a

/-! ### What an instruction leaves -/

/-- `t` is `s` after an instruction that retires with no signal: the next pc is `next` and the status is as before. -/
structure Retires (s t : State) (next : Word) : Prop where
  pc : t.pc = next
  status : t.status = s.status
  signal : t.signal = none

/-- `t` is `s` after an instruction whose only result is `v` in register `rd`; for `rd = 0` the write is
discarded. -/
structure RegisterResult (s t : State) (rd : RegNum) (v next : Word) : Prop extends Retires s t next where
  regs : ∀ r, t.readReg r = if r = rd ∧ rd ≠ 0 then v else s.readReg r
  csrs : SameCsrs s t
  mem : SameMem s t

/-- `t` is `s` after an instruction that only sets the pc. -/
structure PcResult (s t : State) (next : Word) : Prop extends Retires s t next where
  regs : SameRegs s t
  csrs : SameCsrs s t
  mem : SameMem s t

/-- `t` is `s` after a store of the low bytes of `v` at `ea`: byte `ea + i` is `v[8i+7:8i]`, every other byte of
memory, every register and every CSR is as before, and the pc is the next instruction's. -/
structure StoreResult (s t : State) (w : Width) (ea v : Word) : Prop extends Retires s t (s.pc + 4) where
  stored : ∀ i, i < w.bytes → t.mem.byte (ea.toNat + i) = v.extractLsb' (8 * i) 8
  others : ∀ a, a < ea.toNat ∨ ea.toNat + w.bytes ≤ a → t.mem.byte a = s.mem.byte a
  size : t.mem.size = s.mem.size
  regs : SameRegs s t
  csrs : SameCsrs s t

/-- `t` is `s` after a CSR instruction: the addressed CSR holds `new`, `x[rd]` the old value of the CSR (discarded
for `rd = 0`), everything else is as before. -/
structure CsrResult (s t : State) (rd : RegNum) (a : CsrNum) (new : Word) : Prop
    extends Retires s t (s.pc + 4) where
  csr : t.readCsr a = new
  csrs : ∀ b, b ≠ a → t.readCsr b = s.readCsr b
  regs : ∀ r, t.readReg r = if r = rd ∧ rd ≠ 0 then s.readCsr a else s.readReg r
  mem : SameMem s t

/-- `t` is `s` stopped by condition `c` (spec/60_exceptions.md R246, R248): nothing has changed but the status,
which holds the record. -/
structure Stopped (s t : State) (c : Condition) : Prop where
  status : t.status = .fatal { condition := c, pc := s.pc, word := s.fetchedWord }
  pc : t.pc = s.pc
  regs : SameRegs s t
  csrs : SameCsrs s t
  mem : SameMem s t
  signal : t.signal = s.signal

/-- What a branch with this comparison and offset does (spec/43_control_transfer.md R180, R184): not taken, it goes
on at `pc + 4`; taken, it goes to `pc + immB` modulo 2^32, or stops there if that is not a multiple of 4. -/
def BranchBehaves (i : Instr) (taken : Prop) (offset : BitVec 13) (s : State) : Prop :=
  let target : Word := BitVec.ofInt 32 (s.pc.toNat + offset.toInt)
  (¬taken → ∃ t, exec i s = .next t ∧ PcResult s t (s.pc + 4)) ∧
  (taken → target.toNat % 4 = 0 → ∃ t, exec i s = .next t ∧ PcResult s t target) ∧
  (taken → target.toNat % 4 ≠ 0 →
    ∃ t, exec i s = .next t ∧ Stopped s t (.instructionAddressMisaligned target))

/-- The word of the instruction has this match value under this mask. -/
def Encoded (i : Instr) (bits mask : Word) : Prop := encode i &&& mask = bits

/-- What an access of width `w` at `ea` that is not made does (spec/42_load_store.md R161): the instruction stops
with MisalignedAccess for an address that is not a multiple of the size, else with OutOfBounds when it does not end
within MEM_SIZE. -/
def StopsOnBadAccess (i : Instr) (s : State) (w : Width) (ea : Word) : Prop :=
  (ea.toNat % w.bytes ≠ 0 → ∃ t, exec i s = .next t ∧ Stopped s t (.misalignedAccess ea)) ∧
  (ea.toNat % w.bytes = 0 → s.mem.size < ea.toNat + w.bytes →
    ∃ t, exec i s = .next t ∧ Stopped s t (.outOfBounds ea))

/-! ### Well-formed states -/

/-- A fatal record that a step of this machine can have made in the state it stopped (R242 to R248). -/
structure RecordDescribes (record : FatalRecord) (s : State) : Prop where
  pc : record.pc = s.pc
  word : record.word = s.fetchedWord
  condition : match record.condition with
    | .illegalInstruction => ∃ w, s.fetchedWord = some w ∧ ∀ i, decodeWord w ≠ .ok i
    | .outOfBounds addr => s.mem.size < addr.toNat + 4
    | .misalignedAccess addr => addr.toNat % 4 ≠ 0
    | .instructionAddressMisaligned target => target.toNat % 4 = 2

/-- The invariant of the machine: memory and CSR bank in their canonical forms, a MEM_SIZE that R5 allows, a pc
that is a multiple of 4 (R27), and in Fatal a record that describes the stop. -/
structure State.Inv (s : State) : Prop where
  memWf : s.mem.wf = true
  csrWf : s.csrWf = true
  memSize : Config.LegalMemSize s.mem.size
  pcAligned : s.pc.toNat % 4 = 0
  record : ∀ record, s.status = .fatal record → RecordDescribes record s

/-! ### Runs -/

/-- The states a run from `s` passes through. -/
inductive Reaches (s : State) : State → Prop where
  | refl : Reaches s s
  | tail {t u : State} : Reaches s t → step t = .next u → Reaches s u

/-- A run from `s` is safe when no step of it raises a fatal condition: it never leaves Running. -/
def SafeFrom (s : State) : Prop := ∀ t, Reaches s t → t.status = .running

/-- The states agree on everything but the CSR bank. -/
structure AgreeButCsr (s s' : State) : Prop where
  x : s'.x = s.x
  pc : s'.pc = s.pc
  mem : s'.mem = s.mem
  status : s'.status = s.status
  signal : s'.signal = s.signal

end Sys2Proof.Machine
end

