-- ==== Sys2Proof/Certificates/Slice0/Obligations.lean ====
section
/-! DEFINITION. The statements for the provers, from the numbered rules of spec/. -/

open Sys2Proof Sys2Proof.Machine

/-! ### Encoding -/

/-- A few words written out from R94 to R102, one a family. -/
def Obligations.SampleWordsDecode : Prop :=
  decodeWord 0x00100093 = .ok (.addi 1 0 1) ∧
  decodeWord 0x402081B3 = .ok (.sub 3 1 2) ∧
  decodeWord 0x0040D103 = .ok (.lhu 2 1 4) ∧
  decodeWord 0xFE20AE23 = .ok (.sw 2 1 (-4)) ∧
  decodeWord 0xFF9FF0EF = .ok (.jal 1 (-8)) ∧
  decodeWord 0xFE731CE3 = .ok (.bne 6 7 (-8)) ∧
  decodeWord 0x3407F273 = .ok (.csrrci 4 0x340 15) ∧
  decodeWord 0x0FF0000F = .ok .fence ∧
  decodeWord 0x00100073 = .ok .ebreak

/-- Decoding the bytes of an encoded well-formed instruction gives it back, every operand at every value, and
leaves the bytes after it. -/
def Obligations.DecodeOfEncodedBytes : Prop :=
  ∀ (i : Instr) (rest : List Byte), i.wf = true →
    decodeWord (encode i) = .ok i ∧ decode (encodeBytes i ++ rest) = .ok (i, rest)

/-- A word that decodes is the encoding of what it decodes to, except that the fences ignore the rest of the word;
what it decodes to is well-formed. -/
def Obligations.EncodeOfDecodedWord : Prop :=
  ∀ (w : Word) (i : Instr), decodeWord w = .ok i →
    i.wf = true ∧ (i ≠ .fence → i ≠ .fenceI → encode i = w)

/-- The two-level decoder and the match and mask values of R95 to R102 give the same instruction for every word. -/
def Obligations.DecodeAgreesWithTheMatchAndMaskTable : Prop :=
  ∀ w : Word,
    (∀ i, decodeWord w = .ok i → w &&& (tableRow i).mask = (tableRow i).bits) ∧
    (∀ i, w &&& (tableRow i).mask = (tableRow i).bits →
      ∃ j, decodeWord w = .ok j ∧ j.mnemonic = i.mnemonic)

/-- R103: a word that is in no row of the table is IllegalInstruction, and only such a word. -/
def Obligations.WordOutsideTheTableIsIllegal : Prop :=
  ∀ w : Word, decodeWord w = .error (.illegalInstruction w) ↔
    ∀ i, w &&& (tableRow i).mask ≠ (tableRow i).bits

/-- R101: for the fences every bit but opcode and funct3 is ignored (the spec's decision D7). -/
def Obligations.FenceFieldsAreIgnored : Prop :=
  ∀ w : Word,
    (w &&& 0x0000707F = 0x0000000F → decodeWord w = .ok .fence) ∧
    (w &&& 0x0000707F = 0x0000100F → decodeWord w = .ok .fenceI)

/-- R102, R232: ECALL and EBREAK are exactly their words, and every other word with opcode 0x73 and funct3 000,
or with funct3 100, is illegal (the exact words are the spec's decision D6). -/
def Obligations.EnvironmentWordsAreExact : Prop :=
  ∀ w : Word,
    (decodeWord w = .ok .ecall ↔ w = 0x00000073) ∧
    (decodeWord w = .ok .ebreak ↔ w = 0x00100073) ∧
    (w &&& 0x0000707F = 0x00000073 → w ≠ 0x00000073 → w ≠ 0x00100073 →
      decodeWord w = .error (.illegalInstruction w)) ∧
    (w &&& 0x0000707F = 0x00004073 → decodeWord w = .error (.illegalInstruction w))

/-- R84 (with R10) and R87: the I immediate is `word[31:20]` with bit 11 copied to bits 31 to 12, -2048 to 2047; the
U immediate is the word with its low 12 bits 0. -/
def Obligations.IAndUImmediatesOfAWord : Prop :=
  ∀ w : Word,
    immIField w = w.extractLsb 31 20 ∧
    imm12 (immIField w) = (if (immIField w).getLsbD 11 then (immIField w).zeroExtend 32 ||| 0xFFFFF000
      else (immIField w).zeroExtend 32) ∧
    -2048 ≤ (imm12 (immIField w)).toInt ∧ (imm12 (immIField w)).toInt ≤ 2047 ∧
    immU (immUField w) = w &&& 0xFFFFF000

/-- R85, R86, R88, R91: which bit of the word is bit `i` of the S, B and J immediates. The bit scatter is the
standard's, which spec/30_encoding.md marks as its own inference. -/
def Obligations.ScatteredImmediatesOfAWord : Prop :=
  ∀ (w : Word) (i : Nat), i < 32 →
    (imm12 (immSField w)).getLsbD i =
      (if i < 5 then w.getLsbD (i + 7) else if i < 11 then w.getLsbD (i + 20) else w.getLsbD 31) ∧
    (immB (offsetBField w)).getLsbD i =
      (if i = 0 then false else if i < 5 then w.getLsbD (i + 7) else if i < 11 then w.getLsbD (i + 20)
        else if i = 11 then w.getLsbD 7 else w.getLsbD 31) ∧
    (immJ (offsetJField w)).getLsbD i =
      (if i = 0 then false else if i < 11 then w.getLsbD (i + 20) else if i = 11 then w.getLsbD 20
        else if i < 20 then w.getLsbD i else w.getLsbD 31)

/-! ### Registers, CSRs, memory -/

/-- R21, R22: a read of `x[0]` is 0, a write to it changes nothing, and a write to another register is read back
and leaves the rest of the state alone. -/
def Obligations.RegisterFileReadsAndWrites : Prop :=
  ∀ (s : State) (v : Word),
    s.readReg 0 = 0 ∧ s.writeReg 0 v = s ∧
    ∀ r, r ≠ 0 → (s.writeReg r v).readReg r = v ∧
      (∀ q, q ≠ r → (s.writeReg r v).readReg q = s.readReg q) ∧
      (s.writeReg r v).pc = s.pc ∧ SameCsrs s (s.writeReg r v) ∧ SameMem s (s.writeReg r v) ∧
      (s.writeReg r v).status = s.status ∧ (s.writeReg r v).signal = s.signal

/-- R31, R32: every one of the 4096 CSRs is storage: what is written is read back, all 32 bits, and no other
index is affected; after reset each reads 0. -/
def Obligations.CsrBankIsPlainStorage : Prop :=
  (∀ a, State.reset.readCsr a = 0) ∧
  ∀ (s : State) (a : CsrNum) (v : Word), s.csrWf = true →
    (s.writeCsr a v).readCsr a = v ∧ (s.writeCsr a v).csrWf = true ∧
    (∀ b, b ≠ a → (s.writeCsr a v).readCsr b = s.readCsr b) ∧
    SameRegs s (s.writeCsr a v) ∧ SameMem s (s.writeCsr a v) ∧ (s.writeCsr a v).pc = s.pc ∧
    (s.writeCsr a v).status = s.status ∧ (s.writeCsr a v).signal = s.signal

/-- R55, R62: what is stored is loaded back, truncated to the access, and no other byte changes. -/
def Obligations.StoreThenLoadReturnsTheTruncatedValue : Prop :=
  ∀ (m : Memory) (w : Width) (a v : Word), m.wf = true →
    a.toNat % w.bytes = 0 → a.toNat + w.bytes ≤ m.size →
    ∃ m', memWrite w a v m = .ok m' ∧ m'.wf = true ∧ m'.size = m.size ∧
      memRead w a m' = .ok (v.setWidth w.bits) ∧
      ∀ b, b < a.toNat ∨ a.toNat + w.bytes ≤ b → m'.byte b = m.byte b

/-- R52: a narrower access to part of a wider datum sees exactly those bytes, low-order byte at the lowest
address. -/
def Obligations.NarrowReadsSeeTheBytesOfAStoredWord : Prop :=
  ∀ (m m' : Memory) (a v : Word), m.wf = true → memWrite .word a v m = .ok m' →
    (∀ k, k < 4 → m'.read (a.toNat + k) .byte = v.extractLsb' (8 * k) 8) ∧
    (∀ k, k < 3 → m'.read (a.toNat + k) .half = v.extractLsb' (8 * k) 16)

/-- R53 to R57: both accesses raise the same condition: MisalignedAccess for an address that is not a multiple of
the size, else OutOfBounds when the access does not end within MEM_SIZE, the sum unbounded (the spec's decisions
D3, D10 and D14). -/
def Obligations.AccessesTestAlignmentThenBounds : Prop :=
  ∀ (m : Memory) (w : Width) (a v : Word),
    (a.toNat % w.bytes ≠ 0 →
      memRead w a m = .error (.misalignedAccess a) ∧ memWrite w a v m = .error (.misalignedAccess a)) ∧
    (a.toNat % w.bytes = 0 → m.size < a.toNat + w.bytes →
      memRead w a m = .error (.outOfBounds a) ∧ memWrite w a v m = .error (.outOfBounds a))

/-- R58: the fetched word is the four bytes at the address, little-endian; a fetch that does not end within MEM_SIZE
raises OutOfBounds with the address. The byte order of fetch is the spec's decision D16, the unbounded sum D14
(notes/assumptions/11.md). -/
def Obligations.FetchReadsTheLittleEndianWord : Prop :=
  ∀ (m : Memory) (a : Word),
    (m.size < a.toNat + 4 → fetch a m = .error (.outOfBounds a)) ∧
    (a.toNat + 4 ≤ m.size → ∃ w, fetch a m = .ok w ∧
      w.toNat = (m.byte a.toNat).toNat + 2 ^ 8 * (m.byte (a.toNat + 1)).toNat +
        2 ^ 16 * (m.byte (a.toNat + 2)).toNat + 2 ^ 24 * (m.byte (a.toNat + 3)).toNat)

/-! ### Register-register instructions: result, completion and frame -/

/-- R121, R122. -/
def Obligations.AddAndSubAreModuloTwoToThe32 : Prop :=
  ∀ (s : State) (rd rs1 rs2 : RegNum),
    (∃ t, exec (.add rd rs1 rs2) s = .next t ∧ RegisterResult s t rd
      (BitVec.ofNat 32 ((s.readReg rs1).toNat + (s.readReg rs2).toNat)) (s.pc + 4)) ∧
    (∃ t, exec (.sub rd rs1 rs2) s = .next t ∧ RegisterResult s t rd
      (BitVec.ofInt 32 ((s.readReg rs1).toInt - (s.readReg rs2).toInt)) (s.pc + 4)) ∧
    Encoded (.add rd rs1 rs2) 0x00000033 0xFE00707F ∧ Encoded (.sub rd rs1 rs2) 0x40000033 0xFE00707F

/-- R126, R129, R130. -/
def Obligations.LogicalRegisterInstructionsAreBitwise : Prop :=
  ∀ (s : State) (rd rs1 rs2 : RegNum),
    (∃ t v, exec (.xor rd rs1 rs2) s = .next t ∧ RegisterResult s t rd v (s.pc + 4) ∧
      ∀ i, v.getLsbD i = ((s.readReg rs1).getLsbD i != (s.readReg rs2).getLsbD i)) ∧
    (∃ t v, exec (.or rd rs1 rs2) s = .next t ∧ RegisterResult s t rd v (s.pc + 4) ∧
      ∀ i, v.getLsbD i = ((s.readReg rs1).getLsbD i || (s.readReg rs2).getLsbD i)) ∧
    (∃ t v, exec (.and rd rs1 rs2) s = .next t ∧ RegisterResult s t rd v (s.pc + 4) ∧
      ∀ i, v.getLsbD i = ((s.readReg rs1).getLsbD i && (s.readReg rs2).getLsbD i)) ∧
    Encoded (.xor rd rs1 rs2) 0x00004033 0xFE00707F ∧ Encoded (.or rd rs1 rs2) 0x00006033 0xFE00707F ∧
    Encoded (.and rd rs1 rs2) 0x00007033 0xFE00707F

/-- R123, R127, R128: the amount is `x[rs2][4:0]`; SRL and SRA are the unsigned and the signed quotient by the
power of 2, rounded down. -/
def Obligations.RegisterShiftsUseTheLowFiveBits : Prop :=
  ∀ (s : State) (rd rs1 rs2 : RegNum),
    (∃ t v, exec (.sll rd rs1 rs2) s = .next t ∧ RegisterResult s t rd v (s.pc + 4) ∧
      v.toNat = (s.readReg rs1).toNat * 2 ^ ((s.readReg rs2).toNat % 32) % 2 ^ 32) ∧
    (∃ t v, exec (.srl rd rs1 rs2) s = .next t ∧ RegisterResult s t rd v (s.pc + 4) ∧
      v.toNat = (s.readReg rs1).toNat / 2 ^ ((s.readReg rs2).toNat % 32)) ∧
    (∃ t v, exec (.sra rd rs1 rs2) s = .next t ∧ RegisterResult s t rd v (s.pc + 4) ∧
      v.toInt = (s.readReg rs1).toInt / 2 ^ ((s.readReg rs2).toNat % 32)) ∧
    Encoded (.sll rd rs1 rs2) 0x00001033 0xFE00707F ∧ Encoded (.srl rd rs1 rs2) 0x00005033 0xFE00707F ∧
    Encoded (.sra rd rs1 rs2) 0x40005033 0xFE00707F

/-- R124, R125. -/
def Obligations.RegisterComparisonsGiveOneOrZero : Prop :=
  ∀ (s : State) (rd rs1 rs2 : RegNum),
    (∃ t, exec (.slt rd rs1 rs2) s = .next t ∧ RegisterResult s t rd
      (if (s.readReg rs1).toInt < (s.readReg rs2).toInt then 1 else 0) (s.pc + 4)) ∧
    (∃ t, exec (.sltu rd rs1 rs2) s = .next t ∧ RegisterResult s t rd
      (if (s.readReg rs1).toNat < (s.readReg rs2).toNat then 1 else 0) (s.pc + 4)) ∧
    Encoded (.slt rd rs1 rs2) 0x00002033 0xFE00707F ∧ Encoded (.sltu rd rs1 rs2) 0x00003033 0xFE00707F

/-! ### Register-immediate instructions, LUI, AUIPC -/

/-- R141 to R143: the immediate is sign-extended, for SLTIU too. -/
def Obligations.ImmediateAddAndComparisonsSignExtend : Prop :=
  ∀ (s : State) (rd rs1 : RegNum) (imm : BitVec 12),
    (∃ t, exec (.addi rd rs1 imm) s = .next t ∧ RegisterResult s t rd
      (BitVec.ofInt 32 ((s.readReg rs1).toInt + imm.toInt)) (s.pc + 4)) ∧
    (∃ t, exec (.slti rd rs1 imm) s = .next t ∧ RegisterResult s t rd
      (if (s.readReg rs1).toInt < imm.toInt then 1 else 0) (s.pc + 4)) ∧
    (∃ t, exec (.sltiu rd rs1 imm) s = .next t ∧ RegisterResult s t rd
      (if ((s.readReg rs1).toNat : Int) < imm.toInt % 2 ^ 32 then 1 else 0) (s.pc + 4)) ∧
    Encoded (.addi rd rs1 imm) 0x00000013 0x0000707F ∧ Encoded (.slti rd rs1 imm) 0x00002013 0x0000707F ∧
    Encoded (.sltiu rd rs1 imm) 0x00003013 0x0000707F

/-- R144 to R146: bits 31 to 12 of the operand are copies of bit 11 of the field. -/
def Obligations.LogicalImmediateInstructionsAreBitwise : Prop :=
  ∀ (s : State) (rd rs1 : RegNum) (imm : BitVec 12),
    (∃ t v, exec (.xori rd rs1 imm) s = .next t ∧ RegisterResult s t rd v (s.pc + 4) ∧
      ∀ i, i < 32 → v.getLsbD i = ((s.readReg rs1).getLsbD i != imm.getLsbD (min i 11))) ∧
    (∃ t v, exec (.ori rd rs1 imm) s = .next t ∧ RegisterResult s t rd v (s.pc + 4) ∧
      ∀ i, i < 32 → v.getLsbD i = ((s.readReg rs1).getLsbD i || imm.getLsbD (min i 11))) ∧
    (∃ t v, exec (.andi rd rs1 imm) s = .next t ∧ RegisterResult s t rd v (s.pc + 4) ∧
      ∀ i, i < 32 → v.getLsbD i = ((s.readReg rs1).getLsbD i && imm.getLsbD (min i 11))) ∧
    Encoded (.xori rd rs1 imm) 0x00004013 0x0000707F ∧ Encoded (.ori rd rs1 imm) 0x00006013 0x0000707F ∧
    Encoded (.andi rd rs1 imm) 0x00007013 0x0000707F

/-- R147 to R149. -/
def Obligations.ImmediateShiftsUseShamt : Prop :=
  ∀ (s : State) (rd rs1 : RegNum) (shamt : BitVec 5),
    (∃ t v, exec (.slli rd rs1 shamt) s = .next t ∧ RegisterResult s t rd v (s.pc + 4) ∧
      v.toNat = (s.readReg rs1).toNat * 2 ^ shamt.toNat % 2 ^ 32) ∧
    (∃ t v, exec (.srli rd rs1 shamt) s = .next t ∧ RegisterResult s t rd v (s.pc + 4) ∧
      v.toNat = (s.readReg rs1).toNat / 2 ^ shamt.toNat) ∧
    (∃ t v, exec (.srai rd rs1 shamt) s = .next t ∧ RegisterResult s t rd v (s.pc + 4) ∧
      v.toInt = (s.readReg rs1).toInt / 2 ^ shamt.toNat) ∧
    Encoded (.slli rd rs1 shamt) 0x00001013 0xFE00707F ∧ Encoded (.srli rd rs1 shamt) 0x00005013 0xFE00707F ∧
    Encoded (.srai rd rs1 shamt) 0x40005013 0xFE00707F ∧
    (∀ w : Word, w &&& 0x0000707F = 0x00001013 → w &&& 0xFE000000 ≠ 0 →
      decodeWord w = .error (.illegalInstruction w)) ∧
    (∀ w : Word, w &&& 0x0000707F = 0x00005013 → w &&& 0xFE000000 ≠ 0 → w &&& 0xFE000000 ≠ 0x40000000 →
      decodeWord w = .error (.illegalInstruction w))

/-- R150, R151. -/
def Obligations.UpperImmediatesFillTheTopTwentyBits : Prop :=
  ∀ (s : State) (rd : RegNum) (imm20 : BitVec 20),
    (∃ t, exec (.lui rd imm20) s = .next t ∧ RegisterResult s t rd
      (BitVec.ofNat 32 (imm20.toNat * 2 ^ 12)) (s.pc + 4)) ∧
    (∃ t, exec (.auipc rd imm20) s = .next t ∧ RegisterResult s t rd
      (BitVec.ofNat 32 (s.pc.toNat + imm20.toNat * 2 ^ 12)) (s.pc + 4)) ∧
    Encoded (.lui rd imm20) 0x00000037 0x0000007F ∧ Encoded (.auipc rd imm20) 0x00000017 0x0000007F

/-! ### Loads and stores -/

/-- R160: the address is the base plus the sign-extended immediate, modulo 2^32. -/
def Obligations.EffectiveAddressIsBasePlusSignedImmediate : Prop :=
  ∀ (s : State) (rs1 : RegNum) (imm : BitVec 12),
    s.effectiveAddress rs1 imm = BitVec.ofInt 32 ((s.readReg rs1).toNat + imm.toInt)

/-- R162, R163: an in-bounds byte load retires with the byte sign- or zero-extended; one at or above MEM_SIZE stops
with OutOfBounds; no byte load is misaligned. That a stop changes nothing but the status is R161 and R246, the spec's
decision D11 (notes/assumptions/11.md). -/
def Obligations.ByteLoadsExtendTheByte : Prop :=
  ∀ (s : State) (rd rs1 : RegNum) (imm : BitVec 12),
    let ea := s.effectiveAddress rs1 imm
    (ea.toNat < s.mem.size →
      (∃ t v, exec (.lb rd rs1 imm) s = .next t ∧ RegisterResult s t rd v (s.pc + 4) ∧
        v.toInt = (s.mem.byte ea.toNat).toInt) ∧
      (∃ t v, exec (.lbu rd rs1 imm) s = .next t ∧ RegisterResult s t rd v (s.pc + 4) ∧
        v.toNat = (s.mem.byte ea.toNat).toNat)) ∧
    (s.mem.size ≤ ea.toNat → ∀ i ∈ [Instr.lb rd rs1 imm, Instr.lbu rd rs1 imm],
      ∃ t, exec i s = .next t ∧ Stopped s t (.outOfBounds ea)) ∧
    Encoded (.lb rd rs1 imm) 0x00000003 0x0000707F ∧ Encoded (.lbu rd rs1 imm) 0x00004003 0x0000707F

/-- R164, R165, with R161: an aligned in-bounds halfword load retires with the little-endian halfword, sign- or
zero-extended; any other stops. MisalignedAccess is the spec's decision D3,
that a stop changes nothing but the status its decision D11. -/
def Obligations.HalfwordLoadsExtendTheHalfword : Prop :=
  ∀ (s : State) (rd rs1 : RegNum) (imm : BitVec 12),
    let ea := s.effectiveAddress rs1 imm
    let half : Nat := (s.mem.byte ea.toNat).toNat + 2 ^ 8 * (s.mem.byte (ea.toNat + 1)).toNat
    (ea.toNat % 2 = 0 → ea.toNat + 2 ≤ s.mem.size →
      (∃ t v, exec (.lh rd rs1 imm) s = .next t ∧ RegisterResult s t rd v (s.pc + 4) ∧
        v.toInt = if half < 2 ^ 15 then (half : Int) else (half : Int) - 2 ^ 16) ∧
      (∃ t v, exec (.lhu rd rs1 imm) s = .next t ∧ RegisterResult s t rd v (s.pc + 4) ∧ v.toNat = half)) ∧
    StopsOnBadAccess (.lh rd rs1 imm) s .half ea ∧ StopsOnBadAccess (.lhu rd rs1 imm) s .half ea ∧
    Encoded (.lh rd rs1 imm) 0x00001003 0x0000707F ∧ Encoded (.lhu rd rs1 imm) 0x00005003 0x0000707F

/-- R166, with R161: an aligned in-bounds word load retires with the little-endian word; any other stops.
MisalignedAccess is the spec's decision D3, that a stop changes nothing but the status its decision D11. -/
def Obligations.WordLoadReadsTheWord : Prop :=
  ∀ (s : State) (rd rs1 : RegNum) (imm : BitVec 12),
    let ea := s.effectiveAddress rs1 imm
    (ea.toNat % 4 = 0 → ea.toNat + 4 ≤ s.mem.size →
      ∃ t v, exec (.lw rd rs1 imm) s = .next t ∧ RegisterResult s t rd v (s.pc + 4) ∧
        v.toNat = (s.mem.byte ea.toNat).toNat + 2 ^ 8 * (s.mem.byte (ea.toNat + 1)).toNat +
          2 ^ 16 * (s.mem.byte (ea.toNat + 2)).toNat + 2 ^ 24 * (s.mem.byte (ea.toNat + 3)).toNat) ∧
    StopsOnBadAccess (.lw rd rs1 imm) s .word ea ∧ Encoded (.lw rd rs1 imm) 0x00002003 0x0000707F

/-- R167: an in-bounds byte store retires, the low byte of `x[rs2]` is at the effective address and nothing else has
changed; one at or above MEM_SIZE stops with OutOfBounds. That a stop changes nothing but the status is R161 and R246,
the spec's decision D11 (notes/assumptions/11.md). -/
def Obligations.ByteStoreWritesTheLowByte : Prop :=
  ∀ (s : State) (rs2 rs1 : RegNum) (imm : BitVec 12), s.mem.wf = true →
    let ea := s.effectiveAddress rs1 imm
    (ea.toNat < s.mem.size →
      ∃ t, exec (.sb rs2 rs1 imm) s = .next t ∧ StoreResult s t .byte ea (s.readReg rs2)) ∧
    (s.mem.size ≤ ea.toNat → ∃ t, exec (.sb rs2 rs1 imm) s = .next t ∧ Stopped s t (.outOfBounds ea)) ∧
    Encoded (.sb rs2 rs1 imm) 0x00000023 0x0000707F

/-- R168, R169, with R161: an aligned in-bounds halfword or word store retires, the low bytes of `x[rs2]` are at the
effective address and nothing else has changed; any other stops. MisalignedAccess is the spec's decision D3,
that a stop changes nothing but the status its decision D11. -/
def Obligations.HalfwordAndWordStoresWriteTheLowBytes : Prop :=
  ∀ (s : State) (rs2 rs1 : RegNum) (imm : BitVec 12), s.mem.wf = true →
    let ea := s.effectiveAddress rs1 imm
    (ea.toNat % 2 = 0 → ea.toNat + 2 ≤ s.mem.size →
      ∃ t, exec (.sh rs2 rs1 imm) s = .next t ∧ StoreResult s t .half ea (s.readReg rs2)) ∧
    (ea.toNat % 4 = 0 → ea.toNat + 4 ≤ s.mem.size →
      ∃ t, exec (.sw rs2 rs1 imm) s = .next t ∧ StoreResult s t .word ea (s.readReg rs2)) ∧
    StopsOnBadAccess (.sh rs2 rs1 imm) s .half ea ∧ StopsOnBadAccess (.sw rs2 rs1 imm) s .word ea ∧
    Encoded (.sh rs2 rs1 imm) 0x00001023 0x0000707F ∧ Encoded (.sw rs2 rs1 imm) 0x00002023 0x0000707F

/-- R67: the word a retired SW stored is what a fetch from its address reads, with no fence between. The byte order
of fetch is the spec's decision D16. -/
def Obligations.StoredWordIsFetched : Prop :=
  ∀ (s t : State) (rs2 rs1 : RegNum) (imm : BitVec 12), s.mem.wf = true → s.status = .running →
    exec (.sw rs2 rs1 imm) s = .next t → t.status = .running →
    fetch (s.effectiveAddress rs1 imm) t.mem = .ok (s.readReg rs2)

/-! ### Control transfer -/

/-- R182: JAL links `pc + 4` and goes to `pc + immJ`; a target that is not a multiple of 4 stops it and no link is
written (the spec's decisions D4 and D11). -/
def Obligations.JalLinksAndJumps : Prop :=
  ∀ (s : State) (rd : RegNum) (offset : BitVec 21),
    let target : Word := BitVec.ofInt 32 (s.pc.toNat + offset.toInt)
    (target.toNat % 4 = 0 →
      ∃ t, exec (.jal rd offset) s = .next t ∧ RegisterResult s t rd (s.pc + 4) target) ∧
    (target.toNat % 4 ≠ 0 →
      ∃ t, exec (.jal rd offset) s = .next t ∧ Stopped s t (.instructionAddressMisaligned target)) ∧
    Encoded (.jal rd offset) 0x0000006F 0x0000007F

/-- R183: JALR goes to `x[rs1] + immI` with bit 0 cleared, the old `x[rs1]` also when `rd = rs1` (the spec's
decisions D2, D4 and D11). -/
def Obligations.JalrLinksAndJumps : Prop :=
  ∀ (s : State) (rd rs1 : RegNum) (imm : BitVec 12),
    let sum : Word := BitVec.ofInt 32 ((s.readReg rs1).toNat + imm.toInt)
    let target : Word := BitVec.ofNat 32 (sum.toNat / 2 * 2)
    (target.toNat % 4 = 0 →
      ∃ t, exec (.jalr rd rs1 imm) s = .next t ∧ RegisterResult s t rd (s.pc + 4) target) ∧
    (target.toNat % 4 ≠ 0 →
      ∃ t, exec (.jalr rd rs1 imm) s = .next t ∧ Stopped s t (.instructionAddressMisaligned target)) ∧
    Encoded (.jalr rd rs1 imm) 0x00000067 0x0000707F

/-- R184 to R190; the stop of a taken branch with a misaligned target is the spec's decision D4,
that it changes nothing but the status its decision D11. -/
def Obligations.BranchesFollowTheirComparison : Prop :=
  ∀ (s : State) (rs1 rs2 : RegNum) (offset : BitVec 13),
    let a := s.readReg rs1
    let b := s.readReg rs2
    BranchBehaves (.beq rs1 rs2 offset) (a = b) offset s ∧
    BranchBehaves (.bne rs1 rs2 offset) (a ≠ b) offset s ∧
    BranchBehaves (.blt rs1 rs2 offset) (a.toInt < b.toInt) offset s ∧
    BranchBehaves (.bltu rs1 rs2 offset) (a.toNat < b.toNat) offset s ∧
    BranchBehaves (.bge rs1 rs2 offset) (b.toInt ≤ a.toInt) offset s ∧
    BranchBehaves (.bgeu rs1 rs2 offset) (b.toNat ≤ a.toNat) offset s ∧
    Encoded (.beq rs1 rs2 offset) 0x00000063 0x0000707F ∧ Encoded (.bne rs1 rs2 offset) 0x00001063 0x0000707F ∧
    Encoded (.blt rs1 rs2 offset) 0x00004063 0x0000707F ∧ Encoded (.bltu rs1 rs2 offset) 0x00006063 0x0000707F ∧
    Encoded (.bge rs1 rs2 offset) 0x00005063 0x0000707F ∧ Encoded (.bgeu rs1 rs2 offset) 0x00007063 0x0000707F

/-! ### CSR, fence and environment instructions -/

/-- R202 to R204: old value to `rd`, sources read first, so `rd = rs1` exchanges (the spec's decision D2). -/
def Obligations.CsrRegisterFormsReadAndModify : Prop :=
  ∀ (s : State) (rd rs1 : RegNum) (a : CsrNum), s.csrWf = true →
    (∃ t, exec (.csrrw rd a rs1) s = .next t ∧ CsrResult s t rd a (s.readReg rs1)) ∧
    (∃ t new, exec (.csrrs rd a rs1) s = .next t ∧ CsrResult s t rd a new ∧
      ∀ i, new.getLsbD i = ((s.readCsr a).getLsbD i || (s.readReg rs1).getLsbD i)) ∧
    (∃ t new, exec (.csrrc rd a rs1) s = .next t ∧ CsrResult s t rd a new ∧
      ∀ i, new.getLsbD i = ((s.readCsr a).getLsbD i && !(s.readReg rs1).getLsbD i)) ∧
    Encoded (.csrrw rd a rs1) 0x00001073 0x0000707F ∧ Encoded (.csrrs rd a rs1) 0x00002073 0x0000707F ∧
    Encoded (.csrrc rd a rs1) 0x00003073 0x0000707F

/-- R205 to R207: the 5-bit immediate is zero-extended. -/
def Obligations.CsrImmediateFormsReadAndModify : Prop :=
  ∀ (s : State) (rd : RegNum) (a : CsrNum) (uimm : BitVec 5), s.csrWf = true →
    (∃ t, exec (.csrrwi rd a uimm) s = .next t ∧ CsrResult s t rd a (BitVec.ofNat 32 uimm.toNat)) ∧
    (∃ t new, exec (.csrrsi rd a uimm) s = .next t ∧ CsrResult s t rd a new ∧
      ∀ i, new.getLsbD i = ((s.readCsr a).getLsbD i || uimm.getLsbD i)) ∧
    (∃ t new, exec (.csrrci rd a uimm) s = .next t ∧ CsrResult s t rd a new ∧
      ∀ i, new.getLsbD i = ((s.readCsr a).getLsbD i && !uimm.getLsbD i)) ∧
    Encoded (.csrrwi rd a uimm) 0x00005073 0x0000707F ∧ Encoded (.csrrsi rd a uimm) 0x00006073 0x0000707F ∧
    Encoded (.csrrci rd a uimm) 0x00007073 0x0000707F

/-- R220, R221. -/
def Obligations.FencesOnlyAdvanceThePc : Prop :=
  ∀ s : State,
    (∃ t, exec .fence s = .next t ∧ PcResult s t (s.pc + 4)) ∧
    (∃ t, exec .fenceI s = .next t ∧ PcResult s t (s.pc + 4))

/-- R230, R231 with R241: they retire, write no register, CSR or memory, stay Running, and the step's result
carries the signal. That the pc is then `pc + 4` is the spec's decision D5. -/
def Obligations.EnvironmentInstructionsSignalAndRetire : Prop :=
  ∀ s : State, s.status = .running →
    (∃ t, exec .ecall s = .next t ∧ t.pc = s.pc + 4 ∧ SameRegs s t ∧ SameCsrs s t ∧ SameMem s t ∧
      t.status = .running ∧ t.stepResult = .retiredEnvCall) ∧
    (∃ t, exec .ebreak s = .next t ∧ t.pc = s.pc + 4 ∧ SameRegs s t ∧ SameCsrs s t ∧ SameMem s t ∧
      t.status = .running ∧ t.stepResult = .retiredEnvBreak)

/-! ### The step -/

/-- R240: when the word at the pc decodes, the step in Running is that instruction's execution. -/
def Obligations.StepRunsTheDecodedInstruction : Prop :=
  ∀ (s : State) (w : Word) (i : Instr), s.status = .running → s.pc.toNat + 4 ≤ s.mem.size →
    s.mem.read s.pc.toNat .word = w → decodeWord w = .ok i → step s = exec i s

/-- R243, R244, R250 (1) and (2): a fetch outside memory stops the step with the pc and no word; a fetched word
that is not an instruction stops it with the word. That nothing but the status changes is the spec's
decision D11. -/
def Obligations.StepStopsOnBadFetchOrIllegalWord : Prop :=
  ∀ s : State, s.status = .running →
    (s.mem.size < s.pc.toNat + 4 →
      ∃ t, step s = .next t ∧ Stopped s t (.outOfBounds s.pc) ∧
        t.status = .fatal ⟨.outOfBounds s.pc, s.pc, none⟩) ∧
    (s.pc.toNat + 4 ≤ s.mem.size → (∀ i, decodeWord (s.mem.read s.pc.toNat .word) ≠ .ok i) →
      ∃ t, step s = .next t ∧ Stopped s t .illegalInstruction ∧
        t.status = .fatal ⟨.illegalInstruction, s.pc, some (s.mem.read s.pc.toNat .word)⟩)

/-- R254: in Fatal there is no step (the spec's decision D18). -/
def Obligations.NoStepInFatal : Prop :=
  ∀ (s : State) (record : FatalRecord), s.status = .fatal record → step s = .fault (.noStepInFatal record)

/-- R241: a step in Running has exactly one of the four results; in the first three an instruction's rule gave the
state and the core stays Running, in the last nothing but the status has changed. -/
def Obligations.EveryStepHasOneOfTheFourResults : Prop :=
  ∀ s : State, s.status = .running → ∃ t, step s = .next t ∧
    match t.stepResult with
    | .retired => t.status = .running ∧
        ∃ i, s.fetchDecode = .ok i ∧ i ≠ .ecall ∧ i ≠ .ebreak ∧ exec i s = .next t
    | .retiredEnvCall => t.status = .running ∧ s.fetchDecode = .ok .ecall ∧ exec .ecall s = .next t
    | .retiredEnvBreak => t.status = .running ∧ s.fetchDecode = .ok .ebreak ∧ exec .ebreak s = .next t
    | .fatal record => t = { s with status := .fatal record }

/-- R246: a step that ends in Fatal has changed nothing but the status (the spec's decision D11). -/
def Obligations.FatalStepsArePrecise : Prop :=
  ∀ (s t : State) (record : FatalRecord), s.status = .running → step s = .next t →
    t.status = .fatal record → t = { s with status := .fatal record }

/-- R242: which instruction can raise which condition, an access with its own address and size. MisalignedAccess is
the spec's decision D3, InstructionAddressMisaligned its decision D4 (notes/assumptions/11.md). -/
def Obligations.ConditionsComeOnlyFromTheirInstructions : Prop :=
  ∀ (s t : State) (i : Instr) (record : FatalRecord), s.status = .running → s.fetchDecode = .ok i →
    step s = .next t → t.status = .fatal record →
    match record.condition with
    | .illegalInstruction => False
    | .outOfBounds addr => (i.group = .load ∨ i.group = .store) ∧
        ∃ w, s.dataAccess i = some (w, addr) ∧ s.mem.size < addr.toNat + w.bytes
    | .misalignedAccess addr => (∃ rd rs1 imm, i = .lh rd rs1 imm ∨ i = .lhu rd rs1 imm ∨ i = .lw rd rs1 imm ∨
        i = .sh rd rs1 imm ∨ i = .sw rd rs1 imm) ∧
        ∃ w, s.dataAccess i = some (w, addr) ∧ addr.toNat % w.bytes ≠ 0
    | .instructionAddressMisaligned target => (i.group = .jump ∨ i.group = .branch) ∧ target.toNat % 4 ≠ 0

/-- R26: an instruction that retires and is no control transfer goes on at `pc + 4`. For ECALL and
EBREAK that is the spec's decision D5, on which R230 says a claim should not depend (notes/assumptions/9.md). -/
def Obligations.OnlyTransfersLeaveTheSequence : Prop :=
  ∀ (s t : State) (i : Instr), s.status = .running → s.fetchDecode = .ok i → step s = .next t →
    t.status = .running → i.group ≠ .jump → i.group ≠ .branch → t.pc = s.pc + 4

/-- R22, R29: a step changes no register but the instruction's destination. -/
def Obligations.OnlyTheDestinationRegisterChanges : Prop :=
  ∀ (s t : State) (i : Instr) (r : RegNum), s.status = .running → s.fetchDecode = .ok i →
    step s = .next t → i.destination ≠ some r → t.readReg r = s.readReg r

/-- R30: only the CSR instructions reach the CSR bank. -/
def Obligations.OnlyCsrInstructionsChangeCsrs : Prop :=
  ∀ (s t : State) (i : Instr), s.status = .running → s.fetchDecode = .ok i → step s = .next t →
    i.group ≠ .csr → t.csr = s.csr

/-- R60: only stores change memory, and no step changes its capacity. -/
def Obligations.OnlyStoresChangeMemory : Prop :=
  ∀ s t : State, s.status = .running → step s = .next t →
    t.mem.size = s.mem.size ∧ ((∀ i, s.fetchDecode = .ok i → i.group ≠ .store) → t.mem = s.mem)

/-- R30: no CSR changes how any other instruction behaves: two states that agree on everything but the CSR bank
still do after a step of an instruction that is no CSR instruction, and each keeps its bank. -/
def Obligations.CsrContentsDoNotAffectOtherInstructions : Prop :=
  ∀ (s s' t : State), AgreeButCsr s s' → (∀ i, s.fetchDecode = .ok i → i.group ≠ .csr) → step s = .next t →
    ∃ t', step s' = .next t' ∧ AgreeButCsr t t' ∧ t'.csr = s'.csr

/-- R256: the signal is an output: no step depends on it. A step that retires leads to the same state whatever the
signal was; one that stops keeps it. The field is the model's own (notes/assumptions/4.md). -/
def Obligations.NoStepReadsTheSignal : Prop :=
  ∀ (s t : State) (g : Option EnvSignal), step s = .next t →
    (t.status = .running → step { s with signal := g } = .next t) ∧
    (t.status ≠ .running → step { s with signal := g } = .next { t with signal := g })

/-! ### The invariant, reset, launch and the run protocol -/

/-- R39 for what the spec states: after reset the pc is 0 (the spec's decision D15), `x[0]` and every
CSR read 0, the core is Running; the machine meets the invariant, whose canonical forms are the model's own. -/
def Obligations.ResetMeetsTheInvariant : Prop :=
  State.reset.pc = 0 ∧ State.reset.readReg 0 = 0 ∧ (∀ a, State.reset.readCsr a = 0) ∧
  State.reset.status = .running ∧ State.reset.mem.size = 16384 ∧ State.reset.Inv

/-- Every step keeps the invariant: canonical memory and CSR bank, a legal MEM_SIZE, a pc that is a multiple of 4
(R27), and a fatal record that describes the stop (R242 to R248). The spec's decisions D3, D4 and D11. -/
def Obligations.EveryStepKeepsTheInvariant : Prop :=
  ∀ s t : State, s.Inv → step s = .next t → t.Inv

/-- R280, R284, R285, for every `reg_init`, `mem_init`, legal MEM_SIZE and image that fits: the launched machine
holds what R39 says, and meets the invariant. That reset sets the pc is the spec's decision D15. -/
def Obligations.LaunchLoadsTheImage : Prop :=
  ∀ (c : Config) (image : List Byte), Config.LegalMemSize c.memSize → image.length ≤ c.memSize →
    ∃ s, launch c image = .next s ∧ s.Inv ∧ s.pc = 0 ∧ s.status = .running ∧ s.mem.size = c.memSize ∧
      s.readReg 0 = 0 ∧ (∀ r, r ≠ 0 → s.readReg r = c.regInit r) ∧ (∀ a, s.readCsr a = 0) ∧
      (∀ k (h : k < image.length), s.mem.byte k = image[k]) ∧
      (∀ k, image.length ≤ k → k < c.memSize → s.mem.byte k = c.memInit k)

/-- R285: an image longer than MEM_SIZE is refused (the spec's decision D19). -/
def Obligations.LongImageIsRefused : Prop :=
  ∀ (c : Config) (image : List Byte), Config.LegalMemSize c.memSize → c.memSize < image.length →
    launch c image = .refused .imageTooLong

/-- `State.reset` is the launch of an empty image in the reference configuration, the all-zeros instance of
`reg_init` and `mem_init` (the model's choice, notes/assumptions/1.md and 2.md). -/
def Obligations.ResetIsTheAllZerosLaunch : Prop :=
  launch Config.reference [] = .next State.reset

/-- R288 to R290: in a Running state whose fetched word is 0x00000073 the run ends with that step, and its outcome
is pass exactly when `x[10]` is 0. -/
def Obligations.EcallWordEndsTheRun : Prop :=
  ∀ (s : State) (fuel : Nat), s.status = .running → s.fetchedWord = some 0x00000073 →
    ∃ t, step s = .next t ∧ t.stepResult = .retiredEnvCall ∧
      runProtocol (fuel + 1) s = if s.readReg 10 = 0 then .pass t else .fail t

/-- R288, R291: any other step that retires leaves the run going on from the state it leads to, and a step that
ends in Fatal ends the run with the record. -/
def Obligations.OtherWordsContinueTheRun : Prop :=
  ∀ (s t : State) (fuel : Nat), step s = .next t →
    (t.status = .running → s.fetchedWord ≠ some 0x00000073 → runProtocol (fuel + 1) s = runProtocol fuel t) ∧
    (∀ record, t.status = .fatal record → runProtocol (fuel + 1) s = .fatal record t)

/-- R262: a retiring instruction gives the observer its address, word and mnemonic; a stopped one gives none. -/
def Obligations.ObserverSeesRetiredInstructions : Prop :=
  ∀ (s t : State) (w : Word) (i : Instr), s.fetchedWord = some w → decodeWord w = .ok i → step s = .next t →
    (t.status = .running → retireLine s = some { pc := s.pc, word := w, mnemonic := i.mnemonic }) ∧
    (∀ record, t.status = .fatal record → retireLine s = none)
end

