-- ==== Sys2Proof/Laws/Encoding.lean ====
section
/-! SUPPORT. Bit by bit, what each encoded format holds (spec/30_encoding.md R81): every field read back is the
field that was put in, a word is put together again from its fields, and masking keeps the fixed fields. -/

namespace Sys2Proof

/-! ### The bits of an encoded word -/

theorem getLsbD_encodeR (f7 : BitVec 7) (rs2 rs1 : RegNum) (f3 : BitVec 3) (rd : RegNum) (op : BitVec 7) {i : Nat} (hi : i < 32) :
    (encodeR f7 rs2 rs1 f3 rd op).getLsbD i =
      if i < 7 then op.getLsbD i
      else if i < 12 then rd.getLsbD (i - 7)
      else if i < 15 then f3.getLsbD (i - 12)
      else if i < 20 then rs1.getLsbD (i - 15)
      else if i < 25 then rs2.getLsbD (i - 20)
      else f7.getLsbD (i - 25) := by
  change BitVec.getLsbD (w := 7+5+5+3+5+7) (f7 ++ rs2 ++ rs1 ++ f3 ++ rd ++ op) i = _
  simp only [BitVec.getLsbD_append]
  interval_cases i <;> simp

theorem getLsbD_encodeI (imm : BitVec 12) (rs1 : RegNum) (f3 : BitVec 3) (rd : RegNum) (op : BitVec 7) {i : Nat} (hi : i < 32) :
    (encodeI imm rs1 f3 rd op).getLsbD i =
      if i < 7 then op.getLsbD i
      else if i < 12 then rd.getLsbD (i - 7)
      else if i < 15 then f3.getLsbD (i - 12)
      else if i < 20 then rs1.getLsbD (i - 15)
      else imm.getLsbD (i - 20) := by
  change BitVec.getLsbD (w := 12+5+3+5+7) (imm ++ rs1 ++ f3 ++ rd ++ op) i = _
  simp only [BitVec.getLsbD_append]
  interval_cases i <;> simp

theorem getLsbD_encodeS (imm : BitVec 12) (rs2 rs1 : RegNum) (f3 : BitVec 3) (op : BitVec 7) {i : Nat} (hi : i < 32) :
    (encodeS imm rs2 rs1 f3 op).getLsbD i =
      if i < 7 then op.getLsbD i
      else if i < 12 then imm.getLsbD (i - 7)
      else if i < 15 then f3.getLsbD (i - 12)
      else if i < 20 then rs1.getLsbD (i - 15)
      else if i < 25 then rs2.getLsbD (i - 20)
      else imm.getLsbD (i - 20) := by
  change BitVec.getLsbD (w := 7+5+5+3+5+7) (imm.extractLsb 11 5 ++ rs2 ++ rs1 ++ f3 ++ imm.extractLsb 4 0 ++ op) i = _
  simp only [BitVec.getLsbD_append, BitVec.extractLsb, BitVec.getLsbD_extractLsb']
  interval_cases i <;> simp

theorem getLsbD_encodeB (offset : BitVec 13) (rs2 rs1 : RegNum) (f3 : BitVec 3) (op : BitVec 7) {i : Nat} (hi : i < 32) :
    (encodeB offset rs2 rs1 f3 op).getLsbD i =
      if i < 7 then op.getLsbD i
      else if i < 8 then offset.getLsbD (i + 4)
      else if i < 12 then offset.getLsbD (i - 7)
      else if i < 15 then f3.getLsbD (i - 12)
      else if i < 20 then rs1.getLsbD (i - 15)
      else if i < 25 then rs2.getLsbD (i - 20)
      else if i < 31 then offset.getLsbD (i - 20)
      else offset.getLsbD (i - 19) := by
  change BitVec.getLsbD (w := 1+6+5+5+3+4+1+7) (offset.extractLsb 12 12 ++ offset.extractLsb 10 5 ++ rs2 ++ rs1 ++ f3 ++
    offset.extractLsb 4 1 ++ offset.extractLsb 11 11 ++ op) i = _
  simp only [BitVec.getLsbD_append, BitVec.extractLsb, BitVec.getLsbD_extractLsb']
  interval_cases i <;> simp

theorem getLsbD_encodeU (imm20 : BitVec 20) (rd : RegNum) (op : BitVec 7) {i : Nat} (hi : i < 32) :
    (encodeU imm20 rd op).getLsbD i =
      if i < 7 then op.getLsbD i
      else if i < 12 then rd.getLsbD (i - 7)
      else imm20.getLsbD (i - 12) := by
  change BitVec.getLsbD (w := 20+5+7) (imm20 ++ rd ++ op) i = _
  simp only [BitVec.getLsbD_append]
  interval_cases i <;> simp

theorem getLsbD_encodeJ (offset : BitVec 21) (rd : RegNum) (op : BitVec 7) {i : Nat} (hi : i < 32) :
    (encodeJ offset rd op).getLsbD i =
      if i < 7 then op.getLsbD i
      else if i < 12 then rd.getLsbD (i - 7)
      else if i < 20 then offset.getLsbD i
      else if i < 21 then offset.getLsbD (i - 9)
      else if i < 31 then offset.getLsbD (i - 20)
      else offset.getLsbD (i - 11) := by
  change BitVec.getLsbD (w := 1+10+1+8+5+7) (offset.extractLsb 20 20 ++ offset.extractLsb 10 1 ++ offset.extractLsb 11 11 ++
    offset.extractLsb 19 12 ++ rd ++ op) i = _
  simp only [BitVec.getLsbD_append, BitVec.extractLsb, BitVec.getLsbD_extractLsb']
  interval_cases i <;> simp

/-- The bits of the S immediate's field (R85). -/
theorem getLsbD_immSField (w : Word) {i : Nat} (hi : i < 12) :
    (immSField w).getLsbD i = if i < 5 then w.getLsbD (i + 7) else w.getLsbD (i + 20) := by
  change BitVec.getLsbD (w := 7 + 5) (BitVec.extractLsb 31 25 w ++ BitVec.extractLsb 11 7 w) i = _
  simp only [BitVec.getLsbD_append, BitVec.extractLsb, BitVec.getLsbD_extractLsb']
  interval_cases i <;> simp

/-- The bits of the B immediate (R86). -/
theorem getLsbD_offsetBField (w : Word) {i : Nat} (hi : i < 13) :
    (offsetBField w).getLsbD i = if i = 0 then false else if i < 5 then w.getLsbD (i + 7)
      else if i < 11 then w.getLsbD (i + 20) else if i = 11 then w.getLsbD 7 else w.getLsbD 31 := by
  change BitVec.getLsbD (w := 1 + 1 + 6 + 4 + 1) (BitVec.extractLsb 31 31 w ++ BitVec.extractLsb 7 7 w ++
    BitVec.extractLsb 30 25 w ++ BitVec.extractLsb 11 8 w ++ 0#1) i = _
  simp only [BitVec.getLsbD_append, BitVec.extractLsb, BitVec.getLsbD_extractLsb']
  interval_cases i <;> simp

/-- The bits of the J immediate (R88). -/
theorem getLsbD_offsetJField (w : Word) {i : Nat} (hi : i < 21) :
    (offsetJField w).getLsbD i = if i = 0 then false else if i < 11 then w.getLsbD (i + 20)
      else if i = 11 then w.getLsbD 20 else if i < 20 then w.getLsbD i else w.getLsbD 31 := by
  change BitVec.getLsbD (w := 1 + 8 + 1 + 10 + 1) (BitVec.extractLsb 31 31 w ++ BitVec.extractLsb 19 12 w ++
    BitVec.extractLsb 20 20 w ++ BitVec.extractLsb 30 21 w ++ 0#1) i = _
  simp only [BitVec.getLsbD_append, BitVec.extractLsb, BitVec.getLsbD_extractLsb']
  interval_cases i <;> simp

/-- A decoded branch offset is even (R91). -/
theorem evenOffset_offsetBField (w : Word) : evenOffset (offsetBField w) = true := by
  simp only [evenOffset, getLsbD_offsetBField w (show 0 < 13 by omega), if_true, Bool.not_false]

/-- A decoded JAL offset is even (R91). -/
theorem evenOffset_offsetJField (w : Word) : evenOffset (offsetJField w) = true := by
  simp only [evenOffset, getLsbD_offsetJField w (show 0 < 21 by omega), if_true, Bool.not_false]

/-! ### Every field read back -/

@[simp] theorem opcode_encodeR (f7 : BitVec 7) (rs2 rs1 : RegNum) (f3 : BitVec 3) (rd : RegNum) (op : BitVec 7) :
    opcode (encodeR f7 rs2 rs1 f3 rd op) = op := by
  refine BitVec.eq_of_getLsbD_eq fun i hi => ?_
  simp only [opcode, BitVec.extractLsb, BitVec.getLsbD_extractLsb']
  rw [getLsbD_encodeR _ _ _ _ _ _ (by omega)]
  interval_cases i <;> simp

@[simp] theorem funct3_encodeR (f7 : BitVec 7) (rs2 rs1 : RegNum) (f3 : BitVec 3) (rd : RegNum) (op : BitVec 7) :
    funct3 (encodeR f7 rs2 rs1 f3 rd op) = f3 := by
  refine BitVec.eq_of_getLsbD_eq fun i hi => ?_
  simp only [funct3, BitVec.extractLsb, BitVec.getLsbD_extractLsb']
  rw [getLsbD_encodeR _ _ _ _ _ _ (by omega)]
  interval_cases i <;> simp

@[simp] theorem funct7_encodeR (f7 : BitVec 7) (rs2 rs1 : RegNum) (f3 : BitVec 3) (rd : RegNum) (op : BitVec 7) :
    funct7 (encodeR f7 rs2 rs1 f3 rd op) = f7 := by
  refine BitVec.eq_of_getLsbD_eq fun i hi => ?_
  simp only [funct7, BitVec.extractLsb, BitVec.getLsbD_extractLsb']
  rw [getLsbD_encodeR _ _ _ _ _ _ (by omega)]
  interval_cases i <;> simp

@[simp] theorem rdField_encodeR (f7 : BitVec 7) (rs2 rs1 : RegNum) (f3 : BitVec 3) (rd : RegNum) (op : BitVec 7) :
    rdField (encodeR f7 rs2 rs1 f3 rd op) = rd := by
  refine BitVec.eq_of_getLsbD_eq fun i hi => ?_
  simp only [rdField, BitVec.extractLsb, BitVec.getLsbD_extractLsb']
  rw [getLsbD_encodeR _ _ _ _ _ _ (by omega)]
  interval_cases i <;> simp

@[simp] theorem rs1Field_encodeR (f7 : BitVec 7) (rs2 rs1 : RegNum) (f3 : BitVec 3) (rd : RegNum) (op : BitVec 7) :
    rs1Field (encodeR f7 rs2 rs1 f3 rd op) = rs1 := by
  refine BitVec.eq_of_getLsbD_eq fun i hi => ?_
  simp only [rs1Field, BitVec.extractLsb, BitVec.getLsbD_extractLsb']
  rw [getLsbD_encodeR _ _ _ _ _ _ (by omega)]
  interval_cases i <;> simp

@[simp] theorem rs2Field_encodeR (f7 : BitVec 7) (rs2 rs1 : RegNum) (f3 : BitVec 3) (rd : RegNum) (op : BitVec 7) :
    rs2Field (encodeR f7 rs2 rs1 f3 rd op) = rs2 := by
  refine BitVec.eq_of_getLsbD_eq fun i hi => ?_
  simp only [rs2Field, BitVec.extractLsb, BitVec.getLsbD_extractLsb']
  rw [getLsbD_encodeR _ _ _ _ _ _ (by omega)]
  interval_cases i <;> simp

@[simp] theorem opcode_encodeI (imm : BitVec 12) (rs1 : RegNum) (f3 : BitVec 3) (rd : RegNum) (op : BitVec 7) :
    opcode (encodeI imm rs1 f3 rd op) = op := by
  refine BitVec.eq_of_getLsbD_eq fun i hi => ?_
  simp only [opcode, BitVec.extractLsb, BitVec.getLsbD_extractLsb']
  rw [getLsbD_encodeI _ _ _ _ _ (by omega)]
  interval_cases i <;> simp

@[simp] theorem funct3_encodeI (imm : BitVec 12) (rs1 : RegNum) (f3 : BitVec 3) (rd : RegNum) (op : BitVec 7) :
    funct3 (encodeI imm rs1 f3 rd op) = f3 := by
  refine BitVec.eq_of_getLsbD_eq fun i hi => ?_
  simp only [funct3, BitVec.extractLsb, BitVec.getLsbD_extractLsb']
  rw [getLsbD_encodeI _ _ _ _ _ (by omega)]
  interval_cases i <;> simp

@[simp] theorem rdField_encodeI (imm : BitVec 12) (rs1 : RegNum) (f3 : BitVec 3) (rd : RegNum) (op : BitVec 7) :
    rdField (encodeI imm rs1 f3 rd op) = rd := by
  refine BitVec.eq_of_getLsbD_eq fun i hi => ?_
  simp only [rdField, BitVec.extractLsb, BitVec.getLsbD_extractLsb']
  rw [getLsbD_encodeI _ _ _ _ _ (by omega)]
  interval_cases i <;> simp

@[simp] theorem rs1Field_encodeI (imm : BitVec 12) (rs1 : RegNum) (f3 : BitVec 3) (rd : RegNum) (op : BitVec 7) :
    rs1Field (encodeI imm rs1 f3 rd op) = rs1 := by
  refine BitVec.eq_of_getLsbD_eq fun i hi => ?_
  simp only [rs1Field, BitVec.extractLsb, BitVec.getLsbD_extractLsb']
  rw [getLsbD_encodeI _ _ _ _ _ (by omega)]
  interval_cases i <;> simp

@[simp] theorem immIField_encodeI (imm : BitVec 12) (rs1 : RegNum) (f3 : BitVec 3) (rd : RegNum) (op : BitVec 7) :
    immIField (encodeI imm rs1 f3 rd op) = imm := by
  refine BitVec.eq_of_getLsbD_eq fun i hi => ?_
  simp only [immIField, BitVec.extractLsb, BitVec.getLsbD_extractLsb']
  rw [getLsbD_encodeI _ _ _ _ _ (by omega)]
  interval_cases i <;> simp

@[simp] theorem opcode_encodeS (imm : BitVec 12) (rs2 rs1 : RegNum) (f3 : BitVec 3) (op : BitVec 7) :
    opcode (encodeS imm rs2 rs1 f3 op) = op := by
  refine BitVec.eq_of_getLsbD_eq fun i hi => ?_
  simp only [opcode, BitVec.extractLsb, BitVec.getLsbD_extractLsb']
  rw [getLsbD_encodeS _ _ _ _ _ (by omega)]
  interval_cases i <;> simp

@[simp] theorem funct3_encodeS (imm : BitVec 12) (rs2 rs1 : RegNum) (f3 : BitVec 3) (op : BitVec 7) :
    funct3 (encodeS imm rs2 rs1 f3 op) = f3 := by
  refine BitVec.eq_of_getLsbD_eq fun i hi => ?_
  simp only [funct3, BitVec.extractLsb, BitVec.getLsbD_extractLsb']
  rw [getLsbD_encodeS _ _ _ _ _ (by omega)]
  interval_cases i <;> simp

@[simp] theorem rs1Field_encodeS (imm : BitVec 12) (rs2 rs1 : RegNum) (f3 : BitVec 3) (op : BitVec 7) :
    rs1Field (encodeS imm rs2 rs1 f3 op) = rs1 := by
  refine BitVec.eq_of_getLsbD_eq fun i hi => ?_
  simp only [rs1Field, BitVec.extractLsb, BitVec.getLsbD_extractLsb']
  rw [getLsbD_encodeS _ _ _ _ _ (by omega)]
  interval_cases i <;> simp

@[simp] theorem rs2Field_encodeS (imm : BitVec 12) (rs2 rs1 : RegNum) (f3 : BitVec 3) (op : BitVec 7) :
    rs2Field (encodeS imm rs2 rs1 f3 op) = rs2 := by
  refine BitVec.eq_of_getLsbD_eq fun i hi => ?_
  simp only [rs2Field, BitVec.extractLsb, BitVec.getLsbD_extractLsb']
  rw [getLsbD_encodeS _ _ _ _ _ (by omega)]
  interval_cases i <;> simp

@[simp] theorem opcode_encodeB (offset : BitVec 13) (rs2 rs1 : RegNum) (f3 : BitVec 3) (op : BitVec 7) :
    opcode (encodeB offset rs2 rs1 f3 op) = op := by
  refine BitVec.eq_of_getLsbD_eq fun i hi => ?_
  simp only [opcode, BitVec.extractLsb, BitVec.getLsbD_extractLsb']
  rw [getLsbD_encodeB _ _ _ _ _ (by omega)]
  interval_cases i <;> simp

@[simp] theorem funct3_encodeB (offset : BitVec 13) (rs2 rs1 : RegNum) (f3 : BitVec 3) (op : BitVec 7) :
    funct3 (encodeB offset rs2 rs1 f3 op) = f3 := by
  refine BitVec.eq_of_getLsbD_eq fun i hi => ?_
  simp only [funct3, BitVec.extractLsb, BitVec.getLsbD_extractLsb']
  rw [getLsbD_encodeB _ _ _ _ _ (by omega)]
  interval_cases i <;> simp

@[simp] theorem rs1Field_encodeB (offset : BitVec 13) (rs2 rs1 : RegNum) (f3 : BitVec 3) (op : BitVec 7) :
    rs1Field (encodeB offset rs2 rs1 f3 op) = rs1 := by
  refine BitVec.eq_of_getLsbD_eq fun i hi => ?_
  simp only [rs1Field, BitVec.extractLsb, BitVec.getLsbD_extractLsb']
  rw [getLsbD_encodeB _ _ _ _ _ (by omega)]
  interval_cases i <;> simp

@[simp] theorem rs2Field_encodeB (offset : BitVec 13) (rs2 rs1 : RegNum) (f3 : BitVec 3) (op : BitVec 7) :
    rs2Field (encodeB offset rs2 rs1 f3 op) = rs2 := by
  refine BitVec.eq_of_getLsbD_eq fun i hi => ?_
  simp only [rs2Field, BitVec.extractLsb, BitVec.getLsbD_extractLsb']
  rw [getLsbD_encodeB _ _ _ _ _ (by omega)]
  interval_cases i <;> simp

@[simp] theorem opcode_encodeU (imm20 : BitVec 20) (rd : RegNum) (op : BitVec 7) :
    opcode (encodeU imm20 rd op) = op := by
  refine BitVec.eq_of_getLsbD_eq fun i hi => ?_
  simp only [opcode, BitVec.extractLsb, BitVec.getLsbD_extractLsb']
  rw [getLsbD_encodeU _ _ _ (by omega)]
  interval_cases i <;> simp

@[simp] theorem rdField_encodeU (imm20 : BitVec 20) (rd : RegNum) (op : BitVec 7) :
    rdField (encodeU imm20 rd op) = rd := by
  refine BitVec.eq_of_getLsbD_eq fun i hi => ?_
  simp only [rdField, BitVec.extractLsb, BitVec.getLsbD_extractLsb']
  rw [getLsbD_encodeU _ _ _ (by omega)]
  interval_cases i <;> simp

@[simp] theorem immUField_encodeU (imm20 : BitVec 20) (rd : RegNum) (op : BitVec 7) :
    immUField (encodeU imm20 rd op) = imm20 := by
  refine BitVec.eq_of_getLsbD_eq fun i hi => ?_
  simp only [immUField, BitVec.extractLsb, BitVec.getLsbD_extractLsb']
  rw [getLsbD_encodeU _ _ _ (by omega)]
  interval_cases i <;> simp

@[simp] theorem opcode_encodeJ (offset : BitVec 21) (rd : RegNum) (op : BitVec 7) :
    opcode (encodeJ offset rd op) = op := by
  refine BitVec.eq_of_getLsbD_eq fun i hi => ?_
  simp only [opcode, BitVec.extractLsb, BitVec.getLsbD_extractLsb']
  rw [getLsbD_encodeJ _ _ _ (by omega)]
  interval_cases i <;> simp

@[simp] theorem rdField_encodeJ (offset : BitVec 21) (rd : RegNum) (op : BitVec 7) :
    rdField (encodeJ offset rd op) = rd := by
  refine BitVec.eq_of_getLsbD_eq fun i hi => ?_
  simp only [rdField, BitVec.extractLsb, BitVec.getLsbD_extractLsb']
  rw [getLsbD_encodeJ _ _ _ (by omega)]
  interval_cases i <;> simp

@[simp] theorem immSField_encodeS (imm : BitVec 12) (rs2 rs1 : RegNum) (f3 : BitVec 3) (op : BitVec 7) :
    immSField (encodeS imm rs2 rs1 f3 op) = imm := by
  refine BitVec.eq_of_getLsbD_eq fun i hi => ?_
  rw [getLsbD_immSField _ hi, getLsbD_encodeS _ _ _ _ _ (show i + 7 < 32 by omega),
    getLsbD_encodeS _ _ _ _ _ (show i + 20 < 32 by omega)]
  interval_cases i <;> simp

/-- The forced bit 0 of the offset is the one bit the word does not hold. -/
theorem offsetBField_encodeB {offset : BitVec 13} (h : evenOffset offset = true) (rs2 rs1 : RegNum)
    (f3 : BitVec 3) (op : BitVec 7) : offsetBField (encodeB offset rs2 rs1 f3 op) = offset := by
  have h0 : offset.getLsbD 0 = false := by simpa [evenOffset] using h
  refine BitVec.eq_of_getLsbD_eq fun i hi => ?_
  rw [getLsbD_offsetBField _ hi]
  interval_cases i
  · exact h0.symm
  all_goals
    simp only [Nat.reduceLT, Nat.reduceEqDiff, reduceIte, Nat.reduceAdd]
    rw [getLsbD_encodeB _ _ _ _ _ (by omega)]
    simp

theorem offsetJField_encodeJ {offset : BitVec 21} (h : evenOffset offset = true) (rd : RegNum) (op : BitVec 7) :
    offsetJField (encodeJ offset rd op) = offset := by
  have h0 : offset.getLsbD 0 = false := by simpa [evenOffset] using h
  refine BitVec.eq_of_getLsbD_eq fun i hi => ?_
  rw [getLsbD_offsetJField _ hi]
  interval_cases i
  · exact h0.symm
  all_goals
    simp only [Nat.reduceLT, Nat.reduceEqDiff, reduceIte, Nat.reduceAdd]
    rw [getLsbD_encodeJ _ _ _ (by omega)]
    simp

/-! ### Masking keeps the fixed fields -/

theorem encodeR_and_mask (f7 : BitVec 7) (rs2 rs1 : RegNum) (f3 : BitVec 3) (rd : RegNum) (op : BitVec 7) :
    encodeR f7 rs2 rs1 f3 rd op &&& maskOpF3F7 = encodeR f7 0 0 f3 0 op := by
  refine BitVec.eq_of_getLsbD_eq fun i hi => ?_
  rw [BitVec.getLsbD_and, getLsbD_encodeR _ _ _ _ _ _ hi, getLsbD_encodeR _ _ _ _ _ _ hi]
  interval_cases i <;> simp [maskOpF3F7]

theorem encodeI_and_mask (imm : BitVec 12) (rs1 : RegNum) (f3 : BitVec 3) (rd : RegNum) (op : BitVec 7) :
    encodeI imm rs1 f3 rd op &&& maskOpF3 = encodeI 0 0 f3 0 op := by
  refine BitVec.eq_of_getLsbD_eq fun i hi => ?_
  rw [BitVec.getLsbD_and, getLsbD_encodeI _ _ _ _ _ hi, getLsbD_encodeI _ _ _ _ _ hi]
  interval_cases i <;> simp [maskOpF3]

theorem encodeS_and_mask (imm : BitVec 12) (rs2 rs1 : RegNum) (f3 : BitVec 3) (op : BitVec 7) :
    encodeS imm rs2 rs1 f3 op &&& maskOpF3 = encodeS 0 0 0 f3 op := by
  refine BitVec.eq_of_getLsbD_eq fun i hi => ?_
  rw [BitVec.getLsbD_and, getLsbD_encodeS _ _ _ _ _ hi, getLsbD_encodeS _ _ _ _ _ hi]
  interval_cases i <;> simp [maskOpF3]

theorem encodeB_and_mask (offset : BitVec 13) (rs2 rs1 : RegNum) (f3 : BitVec 3) (op : BitVec 7) :
    encodeB offset rs2 rs1 f3 op &&& maskOpF3 = encodeB 0 0 0 f3 op := by
  refine BitVec.eq_of_getLsbD_eq fun i hi => ?_
  rw [BitVec.getLsbD_and, getLsbD_encodeB _ _ _ _ _ hi, getLsbD_encodeB _ _ _ _ _ hi]
  interval_cases i <;> simp [maskOpF3]

theorem encodeU_and_mask (imm20 : BitVec 20) (rd : RegNum) (op : BitVec 7) :
    encodeU imm20 rd op &&& maskOp = encodeU 0 0 op := by
  refine BitVec.eq_of_getLsbD_eq fun i hi => ?_
  rw [BitVec.getLsbD_and, getLsbD_encodeU _ _ _ hi, getLsbD_encodeU _ _ _ hi]
  interval_cases i <;> simp [maskOp]

theorem encodeJ_and_mask (offset : BitVec 21) (rd : RegNum) (op : BitVec 7) :
    encodeJ offset rd op &&& maskOp = encodeJ 0 0 op := by
  refine BitVec.eq_of_getLsbD_eq fun i hi => ?_
  rw [BitVec.getLsbD_and, getLsbD_encodeJ _ _ _ hi, getLsbD_encodeJ _ _ _ hi]
  interval_cases i <;> simp [maskOp]

/-! ### A word put together again from its fields -/

theorem encodeR_fields (w : Word) :
    encodeR (funct7 w) (rs2Field w) (rs1Field w) (funct3 w) (rdField w) (opcode w) = w := by
  refine BitVec.eq_of_getLsbD_eq fun i hi => ?_
  rw [getLsbD_encodeR _ _ _ _ _ _ hi]
  interval_cases i <;>
    simp [opcode, funct3, funct7, rdField, rs1Field, rs2Field, BitVec.extractLsb]

theorem encodeI_fields (w : Word) :
    encodeI (immIField w) (rs1Field w) (funct3 w) (rdField w) (opcode w) = w := by
  refine BitVec.eq_of_getLsbD_eq fun i hi => ?_
  rw [getLsbD_encodeI _ _ _ _ _ hi]
  interval_cases i <;>
    simp [opcode, funct3, rdField, rs1Field, immIField, BitVec.extractLsb]

theorem encodeS_fields (w : Word) :
    encodeS (immSField w) (rs2Field w) (rs1Field w) (funct3 w) (opcode w) = w := by
  refine BitVec.eq_of_getLsbD_eq fun i hi => ?_
  rw [getLsbD_encodeS _ _ _ _ _ hi]
  interval_cases i
  all_goals
    simp only [Nat.reduceLT, reduceIte, Nat.reduceSub]
    try rw [getLsbD_immSField _ (by omega)]
    simp [opcode, funct3, rs1Field, rs2Field, BitVec.extractLsb]

theorem encodeB_fields (w : Word) :
    encodeB (offsetBField w) (rs2Field w) (rs1Field w) (funct3 w) (opcode w) = w := by
  refine BitVec.eq_of_getLsbD_eq fun i hi => ?_
  rw [getLsbD_encodeB _ _ _ _ _ hi]
  interval_cases i
  all_goals
    simp only [Nat.reduceLT, reduceIte, Nat.reduceAdd, Nat.reduceSub]
    try rw [getLsbD_offsetBField _ (by omega)]
    simp [opcode, funct3, rs1Field, rs2Field, BitVec.extractLsb]

theorem encodeU_fields (w : Word) :
    encodeU (immUField w) (rdField w) (opcode w) = w := by
  refine BitVec.eq_of_getLsbD_eq fun i hi => ?_
  rw [getLsbD_encodeU _ _ _ hi]
  interval_cases i <;>
    simp [opcode, rdField, immUField, BitVec.extractLsb]

theorem encodeJ_fields (w : Word) :
    encodeJ (offsetJField w) (rdField w) (opcode w) = w := by
  refine BitVec.eq_of_getLsbD_eq fun i hi => ?_
  rw [getLsbD_encodeJ _ _ _ hi]
  interval_cases i
  all_goals
    simp only [Nat.reduceLT, reduceIte, Nat.reduceSub]
    try rw [getLsbD_offsetJField _ (by omega)]
    simp [opcode, rdField, BitVec.extractLsb]

/-! ### What a masked word says about the fields, and a word through its bytes -/

/-- The masks R94 uses compare the opcode. -/
theorem and_maskOp (w : Word) (op : BitVec 7) : w &&& maskOp = encodeU 0 0 op ↔ opcode w = op := by
  have h := encodeU_and_mask (immUField w) (rdField w) (opcode w)
  rw [encodeU_fields] at h
  rw [h]
  exact ⟨fun e => by simpa using congrArg opcode e, fun e => by rw [e]⟩

/-- opcode and funct3. -/
theorem and_maskOpF3 (w : Word) (f3 : BitVec 3) (op : BitVec 7) :
    w &&& maskOpF3 = encodeI 0 0 f3 0 op ↔ funct3 w = f3 ∧ opcode w = op := by
  have h := encodeI_and_mask (immIField w) (rs1Field w) (funct3 w) (rdField w) (opcode w)
  rw [encodeI_fields] at h
  rw [h]
  exact ⟨fun e => ⟨by simpa using congrArg funct3 e, by simpa using congrArg opcode e⟩,
    fun e => by rw [e.1, e.2]⟩

/-- opcode, funct3 and funct7. -/
theorem and_maskOpF3F7 (w : Word) (f7 : BitVec 7) (f3 : BitVec 3) (op : BitVec 7) :
    w &&& maskOpF3F7 = encodeR f7 0 0 f3 0 op ↔ funct7 w = f7 ∧ funct3 w = f3 ∧ opcode w = op := by
  have h := encodeR_and_mask (funct7 w) (rs2Field w) (rs1Field w) (funct3 w) (rdField w) (opcode w)
  rw [encodeR_fields] at h
  rw [h]
  exact ⟨fun e => ⟨by simpa using congrArg funct7 e, by simpa using congrArg funct3 e,
    by simpa using congrArg opcode e⟩, fun e => by rw [e.1, e.2.1, e.2.2]⟩

/-- The whole word. -/
theorem and_maskAll (w : Word) : w &&& maskAll = w := by
  simpa [maskAll] using BitVec.and_allOnes (x := w)

/-- A word is the word of its bytes (R52). -/
theorem wordOfBytes_bytes (w : Word) : wordOfBytes (w.extractLsb 7 0) (w.extractLsb 15 8)
    (w.extractLsb 23 16) (w.extractLsb 31 24) = w := by
  refine BitVec.eq_of_getLsbD_eq fun i hi => ?_
  change BitVec.getLsbD (w := 8 + 8 + 8 + 8) (w.extractLsb 31 24 ++ w.extractLsb 23 16 ++
    w.extractLsb 15 8 ++ w.extractLsb 7 0) i = _
  simp only [BitVec.getLsbD_append, BitVec.extractLsb, BitVec.getLsbD_extractLsb']
  interval_cases i <;> simp

/-- Decoding a word's bytes is decoding the word. -/
theorem decode_bytesOfWord (w : Word) (rest : List Byte) :
    decode (bytesOfWord w ++ rest) = (decodeWord w).map fun i => (i, rest) := by
  simp only [bytesOfWord, List.cons_append, List.nil_append, decode, wordOfBytes_bytes]
  cases decodeWord w <;> rfl

end Sys2Proof
end

