-- ==== Sys2Proof/Laws/Sparse.lean ====
section
/-! SUPPORT. The laws of the canonical maps: a read after a write, the other keys, the canonical form. -/

namespace Sys2Proof.Machine

variable {α : Type} [DecidableEq α] {d : α}

theorem sparseWf_cons {hi lo k : Nat} {v : α} {rest : List (Nat × α)} :
    sparseWf d hi lo ((k, v) :: rest) = true ↔
      lo ≤ k ∧ k < hi ∧ v ≠ d ∧ sparseWf d hi (k + 1) rest = true := by
  simp [sparseWf, and_assoc]

/-- The lower bound may be lowered. -/
theorem sparseWf_mono {hi lo lo' : Nat} {m : List (Nat × α)} (h : lo' ≤ lo)
    (hm : sparseWf d hi lo m = true) : sparseWf d hi lo' m = true := by
  cases m with
  | nil => rfl
  | cons p rest =>
    obtain ⟨k, v⟩ := p
    rw [sparseWf_cons] at hm ⊢
    exact ⟨h.trans hm.1, hm.2⟩

/-- A key below every listed key reads the default. -/
theorem sparseGet_of_lt {hi lo a : Nat} {m : List (Nat × α)} (hm : sparseWf d hi lo m = true)
    (ha : a < lo) : sparseGet d m a = d := by
  induction m generalizing lo with
  | nil => rfl
  | cons p rest ih =>
    obtain ⟨k, v⟩ := p
    obtain ⟨hk, -, -, hr⟩ := sparseWf_cons.mp hm
    rw [sparseGet, if_neg (by omega)]
    exact ih hr (by omega)

/-- A key at or above the bound reads the default. -/
theorem sparseGet_of_ge {hi lo a : Nat} {m : List (Nat × α)} (hm : sparseWf d hi lo m = true)
    (ha : hi ≤ a) : sparseGet d m a = d := by
  induction m generalizing lo with
  | nil => rfl
  | cons p rest ih =>
    obtain ⟨k, v⟩ := p
    obtain ⟨-, hk, -, hr⟩ := sparseWf_cons.mp hm
    rw [sparseGet, if_neg (by omega)]
    exact ih hr

/-- A read after a write. -/
theorem sparseGet_sparseSet {hi lo : Nat} {m : List (Nat × α)} (hm : sparseWf d hi lo m = true)
    (a b : Nat) (v : α) : sparseGet d (sparseSet d m a v) b = if b = a then v else sparseGet d m b := by
  induction m generalizing lo with
  | nil => by_cases hv : v = d <;> by_cases hb : b = a <;> simp [sparseSet, sparseGet, hv, hb]
  | cons p rest ih =>
    obtain ⟨k, w⟩ := p
    obtain ⟨-, -, -, hr⟩ := sparseWf_cons.mp hm
    have hlow : ∀ c, c < k + 1 → sparseGet d rest c = d := fun c hc => sparseGet_of_lt hr hc
    rw [sparseSet]
    split
    · rename_i hak
      by_cases hv : v = d
      · rw [if_pos hv]
        by_cases hb : b = a
        · rw [if_pos hb, hb, sparseGet, if_neg (by omega), hlow a (by omega), hv]
        · rw [if_neg hb]
      · rw [if_neg hv]
        by_cases hb : b = a <;> simp [sparseGet, hb]
    · split
      · rename_i _ hak
        subst hak
        by_cases hv : v = d
        · rw [if_pos hv]
          by_cases hb : b = a
          · rw [if_pos hb, hb, hlow a (by omega), hv]
          · rw [if_neg hb, sparseGet, if_neg hb]
        · rw [if_neg hv]
          by_cases hb : b = a <;> simp [sparseGet, hb]
      · rename_i _ hak
        by_cases hbk : b = k
        · have : b ≠ a := by omega
          simp [sparseGet, hbk, show k ≠ a by omega]
        · simp [sparseGet, hbk, ih hr]

/-- A write keeps the canonical form. -/
theorem sparseWf_sparseSet {hi lo a : Nat} {m : List (Nat × α)} (hm : sparseWf d hi lo m = true)
    (hlo : lo ≤ a) (hhi : a < hi) (v : α) : sparseWf d hi lo (sparseSet d m a v) = true := by
  induction m generalizing lo with
  | nil =>
    by_cases hv : v = d
    · simp [sparseSet, hv, sparseWf]
    · simp [sparseSet, hv, sparseWf, hlo, hhi]
  | cons p rest ih =>
    obtain ⟨k, w⟩ := p
    obtain ⟨hk, hkhi, hw, hr⟩ := sparseWf_cons.mp hm
    rw [sparseSet]
    split
    · split
      · exact hm
      · rename_i hv
        exact sparseWf_cons.mpr ⟨hlo, hhi, hv, sparseWf_cons.mpr ⟨by omega, hkhi, hw, hr⟩⟩
    · split
      · split
        · exact sparseWf_mono (by omega) hr
        · rename_i hak hv
          exact sparseWf_cons.mpr ⟨hlo, hhi, hv, by rw [hak]; exact hr⟩
      · exact sparseWf_cons.mpr ⟨hk, hkhi, hw, ih hr (by omega)⟩

/-- The map built from a function is canonical. -/
theorem sparseWf_sparseOfFun (f : Nat → α) {hi : Nat} (n lo : Nat) (h : lo + n ≤ hi) :
    sparseWf d hi lo (sparseOfFun d f lo n) = true := by
  induction n generalizing lo with
  | zero => rfl
  | succ n ih =>
    rw [sparseOfFun]
    split
    · exact sparseWf_mono (Nat.le_succ lo) (ih (lo + 1) (by omega))
    · rename_i hv
      exact sparseWf_cons.mpr ⟨le_refl _, by omega, hv, ih (lo + 1) (by omega)⟩

/-- The map built from a function reads as the function. -/
theorem sparseGet_sparseOfFun (f : Nat → α) (n lo a : Nat) :
    sparseGet d (sparseOfFun d f lo n) a = if lo ≤ a ∧ a < lo + n then f a else d := by
  induction n generalizing lo with
  | zero => rw [sparseOfFun, sparseGet, if_neg (by omega)]
  | succ n ih =>
    have hcons : ∀ v : α, sparseGet d ((lo, v) :: sparseOfFun d f (lo + 1) n) a =
        if a = lo then v else if lo + 1 ≤ a ∧ a < lo + 1 + n then f a else d := fun v => by
      rw [sparseGet, ih (lo + 1)]
    have hmerge : (if a = lo then f lo else if lo + 1 ≤ a ∧ a < lo + 1 + n then f a else d) =
        if lo ≤ a ∧ a < lo + (n + 1) then f a else d := by
      by_cases ha : a = lo
      · rw [if_pos ha, if_pos (by omega), ha]
      · rw [if_neg ha]
        by_cases hin : lo + 1 ≤ a ∧ a < lo + 1 + n
        · rw [if_pos hin, if_pos (by omega)]
        · rw [if_neg hin, if_neg (by omega)]
    rw [← hmerge, sparseOfFun]
    split
    · rename_i hv
      rw [ih (lo + 1), hv]
      by_cases ha : a = lo
      · rw [if_pos ha, if_neg (by omega)]
      · rw [if_neg ha]
    · exact hcons _

/-- Canonical maps that read alike are equal: the form is canonical. -/
theorem sparse_ext {hi lo : Nat} {m m' : List (Nat × α)} (hm : sparseWf d hi lo m = true)
    (hm' : sparseWf d hi lo m' = true) (h : ∀ a, sparseGet d m a = sparseGet d m' a) : m = m' := by
  induction m generalizing lo m' with
  | nil =>
    cases m' with
    | nil => rfl
    | cons p rest =>
      obtain ⟨k, v⟩ := p
      have := h k
      simp only [sparseGet, if_true] at this
      exact absurd this.symm (sparseWf_cons.mp hm').2.2.1
  | cons p rest ih =>
    obtain ⟨k, v⟩ := p
    obtain ⟨hk, hkhi, hv, hr⟩ := sparseWf_cons.mp hm
    cases m' with
    | nil =>
      have := h k
      simp only [sparseGet, if_true] at this
      exact absurd this hv
    | cons p' rest' =>
      obtain ⟨k', v'⟩ := p'
      obtain ⟨hk', hkhi', hv', hr'⟩ := sparseWf_cons.mp hm'
      have hkk : k = k' := by
        rcases Nat.lt_trichotomy k k' with hlt | heq | hgt
        · have := h k
          rw [sparseGet, if_pos rfl, sparseGet, if_neg (by omega), sparseGet_of_lt hr' (by omega)] at this
          exact absurd this hv
        · exact heq
        · have := h k'
          rw [sparseGet, if_neg (by omega), sparseGet_of_lt hr (by omega), sparseGet, if_pos rfl] at this
          exact absurd this.symm hv'
      subst hkk
      have hvv : v = v' := by simpa [sparseGet] using h k
      subst hvv
      congr 1
      refine ih hr hr' fun a => ?_
      by_cases ha : a = k
      · rw [ha, sparseGet_of_lt hr (by omega), sparseGet_of_lt hr' (by omega)]
      · simpa [sparseGet, ha] using h a

end Sys2Proof.Machine
end

