-- ==== Sys2Proof/Laws/State.lean ====
section
/-! SUPPORT. One lemma for each field under each update of the state, and what a register or CSR read gives
after each update, so that no later proof unfolds a record update. -/

namespace Sys2Proof.Machine

variable (s : State)

/-! ### writeReg -/

@[simp] theorem State.writeReg_pc (r : RegNum) (v : Word) : (s.writeReg r v).pc = s.pc := by
  unfold State.writeReg; split <;> rfl
@[simp] theorem State.writeReg_csr (r : RegNum) (v : Word) : (s.writeReg r v).csr = s.csr := by
  unfold State.writeReg; split <;> rfl
@[simp] theorem State.writeReg_mem (r : RegNum) (v : Word) : (s.writeReg r v).mem = s.mem := by
  unfold State.writeReg; split <;> rfl
@[simp] theorem State.writeReg_status (r : RegNum) (v : Word) : (s.writeReg r v).status = s.status := by
  unfold State.writeReg; split <;> rfl
@[simp] theorem State.writeReg_signal (r : RegNum) (v : Word) : (s.writeReg r v).signal = s.signal := by
  unfold State.writeReg; split <;> rfl

/-! ### writeCsr -/

@[simp] theorem State.writeCsr_x (a : CsrNum) (v : Word) : (s.writeCsr a v).x = s.x := rfl
@[simp] theorem State.writeCsr_pc (a : CsrNum) (v : Word) : (s.writeCsr a v).pc = s.pc := rfl
@[simp] theorem State.writeCsr_mem (a : CsrNum) (v : Word) : (s.writeCsr a v).mem = s.mem := rfl
@[simp] theorem State.writeCsr_status (a : CsrNum) (v : Word) : (s.writeCsr a v).status = s.status := rfl
@[simp] theorem State.writeCsr_signal (a : CsrNum) (v : Word) : (s.writeCsr a v).signal = s.signal := rfl
@[simp] theorem State.readReg_writeCsr (a : CsrNum) (v : Word) (r : RegNum) :
    (s.writeCsr a v).readReg r = s.readReg r := rfl

/-! ### withMem -/

@[simp] theorem State.withMem_x (m : Memory) : (s.withMem m).x = s.x := rfl
@[simp] theorem State.withMem_pc (m : Memory) : (s.withMem m).pc = s.pc := rfl
@[simp] theorem State.withMem_csr (m : Memory) : (s.withMem m).csr = s.csr := rfl
@[simp] theorem State.withMem_mem (m : Memory) : (s.withMem m).mem = m := rfl
@[simp] theorem State.withMem_status (m : Memory) : (s.withMem m).status = s.status := rfl
@[simp] theorem State.withMem_signal (m : Memory) : (s.withMem m).signal = s.signal := rfl
@[simp] theorem State.readReg_withMem (m : Memory) (r : RegNum) : (s.withMem m).readReg r = s.readReg r := rfl
@[simp] theorem State.readCsr_withMem (m : Memory) (a : CsrNum) : (s.withMem m).readCsr a = s.readCsr a := rfl

/-! ### retireWith and retire -/

@[simp] theorem State.retireWith_x (n : Word) (g : Option EnvSignal) : (s.retireWith n g).x = s.x := rfl
@[simp] theorem State.retireWith_pc (n : Word) (g : Option EnvSignal) : (s.retireWith n g).pc = n := rfl
@[simp] theorem State.retireWith_csr (n : Word) (g : Option EnvSignal) : (s.retireWith n g).csr = s.csr := rfl
@[simp] theorem State.retireWith_mem (n : Word) (g : Option EnvSignal) : (s.retireWith n g).mem = s.mem := rfl
@[simp] theorem State.retireWith_status (n : Word) (g : Option EnvSignal) :
    (s.retireWith n g).status = s.status := rfl
@[simp] theorem State.retireWith_signal (n : Word) (g : Option EnvSignal) : (s.retireWith n g).signal = g := rfl
@[simp] theorem State.readReg_retireWith (n : Word) (g : Option EnvSignal) (r : RegNum) :
    (s.retireWith n g).readReg r = s.readReg r := rfl
@[simp] theorem State.readCsr_retireWith (n : Word) (g : Option EnvSignal) (a : CsrNum) :
    (s.retireWith n g).readCsr a = s.readCsr a := rfl

@[simp] theorem State.retire_x (n : Word) : (s.retire n).x = s.x := rfl
@[simp] theorem State.retire_pc (n : Word) : (s.retire n).pc = n := rfl
@[simp] theorem State.retire_csr (n : Word) : (s.retire n).csr = s.csr := rfl
@[simp] theorem State.retire_mem (n : Word) : (s.retire n).mem = s.mem := rfl
@[simp] theorem State.retire_status (n : Word) : (s.retire n).status = s.status := rfl
@[simp] theorem State.retire_signal (n : Word) : (s.retire n).signal = none := rfl
@[simp] theorem State.readReg_retire (n : Word) (r : RegNum) : (s.retire n).readReg r = s.readReg r := rfl
@[simp] theorem State.readCsr_retire (n : Word) (a : CsrNum) : (s.retire n).readCsr a = s.readCsr a := rfl

/-! ### halt -/

@[simp] theorem State.halt_x (c : Condition) : (s.halt c).x = s.x := rfl
@[simp] theorem State.halt_pc (c : Condition) : (s.halt c).pc = s.pc := rfl
@[simp] theorem State.halt_csr (c : Condition) : (s.halt c).csr = s.csr := rfl
@[simp] theorem State.halt_mem (c : Condition) : (s.halt c).mem = s.mem := rfl
@[simp] theorem State.halt_status (c : Condition) : (s.halt c).status = .fatal (s.fatalRecord c) := rfl
@[simp] theorem State.halt_signal (c : Condition) : (s.halt c).signal = s.signal := rfl
@[simp] theorem State.readReg_halt (c : Condition) (r : RegNum) : (s.halt c).readReg r = s.readReg r := rfl
@[simp] theorem State.readCsr_halt (c : Condition) (a : CsrNum) : (s.halt c).readCsr a = s.readCsr a := rfl
@[simp] theorem State.fatalRecord_condition (c : Condition) : (s.fatalRecord c).condition = c := rfl
@[simp] theorem State.fatalRecord_pc (c : Condition) : (s.fatalRecord c).pc = s.pc := rfl
@[simp] theorem State.fatalRecord_word (c : Condition) : (s.fatalRecord c).word = s.fetchedWord := rfl

/-! ### The register file (R21, R22) -/

@[simp] theorem State.readReg_zero : s.readReg 0#5 = 0#32 := by simp [State.readReg]

/-- A register read after a register write. -/
theorem State.readReg_writeReg (r q : RegNum) (v : Word) :
    (s.writeReg r v).readReg q = if q = r ∧ r ≠ 0 then v else s.readReg q := by
  by_cases hr : r = 0
  · rw [if_neg (fun h => h.2 hr), State.writeReg, if_pos hr]
  · by_cases hq : q = 0
    · rw [if_neg (fun h : q = r ∧ r ≠ 0 => hr (h.1 ▸ hq)), hq]; simp
    · have hr' : r.toNat ≠ 0 := fun h => hr (BitVec.eq_of_toNat_eq h)
      have hq' : q.toNat ≠ 0 := fun h => hq (BitVec.eq_of_toNat_eq h)
      have hset : (s.writeReg r v).readReg q = if r.toNat - 1 = q.toNat - 1 then v else s.readReg q := by
        simp only [State.writeReg, State.readReg, hr, hq, if_false, Vector.getElem_set]
      rw [hset]
      by_cases hqr : q = r
      · rw [if_pos (by rw [hqr]), if_pos ⟨hqr, hr⟩]
      · have : q.toNat ≠ r.toNat := fun h => hqr (BitVec.eq_of_toNat_eq h)
        rw [if_neg (by omega), if_neg (fun h => hqr h.1)]

@[simp] theorem State.readCsr_writeReg (r : RegNum) (v : Word) (a : CsrNum) :
    (s.writeReg r v).readCsr a = s.readCsr a := by simp [State.readCsr]

end Sys2Proof.Machine
end

