-- ==== Sys2Proof/Laws/Ops.lean ====
section
/-! SUPPORT. What each shared operation can do, said once: memory and CSR laws, and for every operation that ends
an instruction one lemma that lists the states it may answer. -/

namespace Sys2Proof.Machine

/-! ### The CSR bank (R31, R32) -/

/-- A CSR read after a CSR write, in a canonical bank. -/
theorem State.readCsr_writeCsr {s : State} (h : s.csrWf = true) (a b : CsrNum) (v : Word) :
    (s.writeCsr a v).readCsr b = if b = a then v else s.readCsr b := by
  have h' := sparseGet_sparseSet (d := (0 : Word)) h a.toNat b.toNat v
  by_cases hb : b = a
  · simpa [State.readCsr, State.writeCsr, hb] using h'
  · have : b.toNat ≠ a.toNat := fun e => hb (BitVec.eq_of_toNat_eq e)
    simpa [State.readCsr, State.writeCsr, hb, this] using h'

/-- A CSR write keeps the canonical form. -/
theorem State.csrWf_writeCsr {s : State} (h : s.csrWf = true) (a : CsrNum) (v : Word) :
    (s.writeCsr a v).csrWf = true :=
  sparseWf_sparseSet h (Nat.zero_le _) a.isLt v

/-- The canonical form depends on the bank only. -/
theorem State.csrWf_congr {s t : State} (h : t.csr = s.csr) (hs : s.csrWf = true) : t.csrWf = true := by
  unfold State.csrWf at *; rw [h]; exact hs

/-! ### Memory (R52, R55) -/

@[simp] theorem Memory.setByte_size (m : Memory) (a : Nat) (v : Byte) : (m.setByte a v).size = m.size := rfl

@[simp] theorem Memory.writeBytes_size (m : Memory) (a : Nat) (v : Word) (n : Nat) :
    (m.writeBytes a v n).size = m.size := by
  induction n with
  | zero => rfl
  | succ n ih => simp [Memory.writeBytes, ih]

/-- Writing one byte in bounds keeps the canonical form. -/
theorem Memory.wf_setByte {m : Memory} (h : m.wf = true) {a : Nat} (ha : a < m.size) (v : Byte) :
    (m.setByte a v).wf = true :=
  sparseWf_sparseSet h (Nat.zero_le _) ha v

/-- Writing bytes in bounds keeps the canonical form. -/
theorem Memory.wf_writeBytes {m : Memory} (h : m.wf = true) {a n : Nat} (ha : a + n ≤ m.size) (v : Word) :
    (m.writeBytes a v n).wf = true := by
  induction n with
  | zero => exact h
  | succ n ih => exact Memory.wf_setByte (ih (by omega)) (by rw [Memory.writeBytes_size]; omega) _

/-- One byte after a byte write, in a canonical memory. -/
theorem Memory.byte_setByte {m : Memory} (h : m.wf = true) (a b : Nat) (v : Byte) :
    (m.setByte a v).byte b = if b = a then v else m.byte b :=
  sparseGet_sparseSet (d := (0 : Byte)) h a b v

/-- One byte after `writeBytes`: the written bytes are those of the value, low byte first; the others are as
before (R55). -/
theorem Memory.byte_writeBytes {m : Memory} (h : m.wf = true) {a n : Nat} (ha : a + n ≤ m.size) (v : Word)
    (b : Nat) : (m.writeBytes a v n).byte b =
      if a ≤ b ∧ b < a + n then v.extractLsb' (8 * (b - a)) 8 else m.byte b := by
  induction n with
  | zero => rw [Memory.writeBytes, if_neg (by omega)]
  | succ n ih =>
    rw [Memory.writeBytes, Memory.byte_setByte (Memory.wf_writeBytes h (by omega) v), ih (by omega)]
    by_cases hb : b = a + n
    · subst hb
      rw [if_pos rfl, if_pos (by omega), Nat.add_sub_cancel_left]
    · rw [if_neg hb]
      by_cases hin : a ≤ b ∧ b < a + n
      · rw [if_pos hin, if_pos (by omega)]
      · rw [if_neg hin, if_neg (by omega)]

/-- Two bytes put together are the halfword they came from. -/
theorem append_bytes_half {lo hi : Byte} {v : BitVec 16} (hlo : lo = v.extractLsb' 0 8)
    (hhi : hi = v.extractLsb' 8 8) : (hi ++ lo : BitVec (8 + 8)) = v := by
  subst hlo hhi
  refine BitVec.eq_of_getLsbD_eq fun i hi => ?_
  rw [BitVec.getLsbD_append]
  simp only [BitVec.getLsbD_extractLsb']
  interval_cases i <;> simp

/-- Four bytes put together are the word they came from. -/
theorem append_bytes_word {b0 b1 b2 b3 : Byte} {v : Word} (h0 : b0 = v.extractLsb' 0 8)
    (h1 : b1 = v.extractLsb' 8 8) (h2 : b2 = v.extractLsb' 16 8) (h3 : b3 = v.extractLsb' 24 8) :
    (b3 ++ b2 ++ b1 ++ b0 : BitVec (8 + 8 + 8 + 8)) = v := by
  subst h0 h1 h2 h3
  refine BitVec.eq_of_getLsbD_eq fun i hi => ?_
  rw [BitVec.getLsbD_append, BitVec.getLsbD_append, BitVec.getLsbD_append]
  simp only [BitVec.getLsbD_extractLsb']
  interval_cases i <;> simp

/-- Byte `k` of what `writeBytes` has written. -/
theorem Memory.byte_writeBytes_at {m : Memory} (h : m.wf = true) {a n : Nat} (ha : a + n ≤ m.size) (v : Word)
    {k : Nat} (hk : k < n) : (m.writeBytes a v n).byte (a + k) = v.extractLsb' (8 * k) 8 := by
  rw [Memory.byte_writeBytes h ha, if_pos (by omega), Nat.add_sub_cancel_left]

/-- What is written is read back, truncated to the access (R55, R62). -/
theorem Memory.read_writeBytes {m : Memory} (h : m.wf = true) {a : Nat} (w : Width)
    (ha : a + w.bytes ≤ m.size) (v : Word) :
    (m.writeBytes a v w.bytes).read a w = v.setWidth w.bits := by
  have hb : ∀ k, k < w.bytes → (m.writeBytes a v w.bytes).byte (a + k) = v.extractLsb' (8 * k) 8 :=
    fun k hk => Memory.byte_writeBytes_at h ha v hk
  cases w with
  | byte =>
    refine (hb 0 (by decide)).trans (BitVec.eq_of_getLsbD_eq fun i hi => ?_)
    simp only [Width.bits, BitVec.getLsbD_extractLsb', BitVec.getLsbD_setWidth, Nat.mul_zero, Nat.zero_add]
  | half =>
    have hlow : ∀ k, k < 2 → (v.setWidth 16).extractLsb' (8 * k) 8 = v.extractLsb' (8 * k) 8 := fun k hk =>
      BitVec.eq_of_getLsbD_eq fun i hi => by
        rw [BitVec.getLsbD_extractLsb', BitVec.getLsbD_extractLsb', BitVec.getLsbD_setWidth]
        simp [show 8 * k + i < 16 by omega]
    exact append_bytes_half ((hb 0 (by decide)).trans (hlow 0 (by decide)).symm)
      ((hb 1 (by decide)).trans (hlow 1 (by decide)).symm)
  | word =>
    have hv : v.setWidth Width.word.bits = v := BitVec.setWidth_eq v
    rw [hv]
    exact append_bytes_word (hb 0 (by decide)) (hb 1 (by decide)) (hb 2 (by decide)) (hb 3 (by decide))

/-- The canonical form is canonical: memories of one size that read alike are equal. -/
theorem Memory.ext_of_byte {m m' : Memory} (h : m.wf = true) (h' : m'.wf = true) (hs : m.size = m'.size)
    (hb : ∀ a, m.byte a = m'.byte a) : m = m' := by
  obtain ⟨n, cells⟩ := m
  obtain ⟨n', cells'⟩ := m'
  simp only at hs
  subst hs
  congr 1
  exact sparse_ext (d := (0 : Byte)) h h' hb

/-! ### The access tests (R53, R56, R57) -/

/-- No condition: aligned and in bounds. -/
theorem accessCondition_eq_none {w : Width} {a : Word} {m : Memory} :
    accessCondition w a m = none ↔ a.toNat % w.bytes = 0 ∧ a.toNat + w.bytes ≤ m.size := by
  unfold accessCondition
  split
  · simp; omega
  · split <;> simp_all

/-- Which condition: misalignment first. -/
theorem accessCondition_eq_some {w : Width} {a : Word} {m : Memory} {c : Condition} :
    accessCondition w a m = some c ↔
      (a.toNat % w.bytes ≠ 0 ∧ c = .misalignedAccess a) ∨
      (a.toNat % w.bytes = 0 ∧ m.size < a.toNat + w.bytes ∧ c = .outOfBounds a) := by
  unfold accessCondition
  split
  · simp_all [eq_comm]
  · split <;> simp_all [eq_comm]

theorem memRead_of_ok {w : Width} {a : Word} {m : Memory} (ha : a.toNat % w.bytes = 0)
    (hb : a.toNat + w.bytes ≤ m.size) : memRead w a m = .ok (m.read a.toNat w) := by
  rw [memRead, accessCondition_eq_none.mpr ⟨ha, hb⟩]

theorem memWrite_of_ok {w : Width} {a : Word} {v : Word} {m : Memory} (ha : a.toNat % w.bytes = 0)
    (hb : a.toNat + w.bytes ≤ m.size) : memWrite w a v m = .ok (m.writeBytes a.toNat v w.bytes) := by
  rw [memWrite, accessCondition_eq_none.mpr ⟨ha, hb⟩]

/-- A write that is made was aligned and in bounds. -/
theorem memWrite_eq_ok {w : Width} {a : Word} {v : Word} {m m' : Memory} (h : memWrite w a v m = .ok m') :
    a.toNat % w.bytes = 0 ∧ a.toNat + w.bytes ≤ m.size ∧ m' = m.writeBytes a.toNat v w.bytes := by
  unfold memWrite at h
  split at h
  · cases h
  · rename_i hn
    obtain ⟨h1, h2⟩ := accessCondition_eq_none.mp hn
    exact ⟨h1, h2, (Except.ok.inj h).symm⟩

/-- `MemWrite` keeps the canonical form. -/
theorem memWrite_wf {w : Width} {a : Word} {v : Word} {m m' : Memory} (hm : m.wf = true)
    (h : memWrite w a v m = .ok m') : m'.wf = true := by
  obtain ⟨-, hb, rfl⟩ := memWrite_eq_ok h
  exact Memory.wf_writeBytes hm hb v

/-- The two ways a fetch ends (R58). -/
theorem fetch_cases (a : Word) (m : Memory) :
    (m.size < a.toNat + 4 ∧ fetch a m = .error (.outOfBounds a)) ∨
    (a.toNat + 4 ≤ m.size ∧ fetch a m = .ok (m.read a.toNat .word)) := by
  unfold fetch
  split
  · exact .inl ⟨‹_›, rfl⟩
  · exact .inr ⟨by omega, rfl⟩

/-- The fetched word, when the fetch succeeds (R58). -/
theorem State.fetchedWord_of_le {s : State} (h : s.pc.toNat + 4 ≤ s.mem.size) :
    s.fetchedWord = some (s.mem.read s.pc.toNat .word) := by
  rcases fetch_cases s.pc s.mem with ⟨h', -⟩ | ⟨-, e⟩
  · omega
  · rw [State.fetchedWord, e]; rfl

/-- No word is fetched outside memory (R244). -/
theorem State.fetchedWord_of_lt {s : State} (h : s.mem.size < s.pc.toNat + 4) : s.fetchedWord = none := by
  rcases fetch_cases s.pc s.mem with ⟨-, e⟩ | ⟨h', -⟩
  · rw [State.fetchedWord, e]; rfl
  · omega

/-! ### The operations that end an instruction: what they may answer -/

/-- `raise` answers the halted state. -/
theorem raise_eq_next {c : Condition} {s t : State} (h : raise c s = .next t) : t = s.halt c :=
  (Host.Outcome.next.inj h).symm

/-- `writeBack` always retires. -/
theorem writeBack_eq_next {rd : RegNum} {v : Word} {s t : State} (h : writeBack rd v s = .next t) :
    t = (s.writeReg rd v).retire s.nextPc :=
  (Host.Outcome.next.inj h).symm

/-- A load raises the condition of its access, or retires with the extended value. -/
theorem loadInto_cases (rd : RegNum) (w : Width) (ea : Word) (e : BitVec w.bits → Word) (s : State) :
    (∃ c, accessCondition w ea s.mem = some c ∧ loadInto rd w ea e s = .next (s.halt c)) ∨
    (accessCondition w ea s.mem = none ∧
      loadInto rd w ea e s = .next ((s.writeReg rd (e (s.mem.read ea.toNat w))).retire s.nextPc)) := by
  unfold loadInto memRead
  cases h : accessCondition w ea s.mem with
  | some c => exact .inl ⟨c, rfl, rfl⟩
  | none => exact .inr ⟨rfl, rfl⟩

/-- A store raises the condition of its access, or retires with the bytes written. -/
theorem storeFrom_cases (w : Width) (ea v : Word) (s : State) :
    (∃ c, accessCondition w ea s.mem = some c ∧ storeFrom w ea v s = .next (s.halt c)) ∨
    (accessCondition w ea s.mem = none ∧
      storeFrom w ea v s = .next ((s.withMem (s.mem.writeBytes ea.toNat v w.bytes)).retire s.nextPc)) := by
  unfold storeFrom memWrite
  cases h : accessCondition w ea s.mem with
  | some c => exact .inl ⟨c, rfl, rfl⟩
  | none => exact .inr ⟨rfl, rfl⟩

/-- A transfer raises on a target that is not a multiple of 4, or goes there. -/
theorem transfer_cases (target : Word) (linked s : State) :
    (target.toNat % 4 ≠ 0 ∧ transfer target linked s = .next (s.halt (.instructionAddressMisaligned target))) ∨
    (target.toNat % 4 = 0 ∧ transfer target linked s = .next (linked.retire target)) := by
  unfold transfer
  split
  · exact .inl ⟨‹_›, rfl⟩
  · exact .inr ⟨by omega, rfl⟩

/-- A branch raises, goes to its target, or falls through. -/
theorem branchTo_cases (taken : Bool) (target : Word) (s : State) :
    (taken = true ∧ target.toNat % 4 ≠ 0 ∧
      branchTo taken target s = .next (s.halt (.instructionAddressMisaligned target))) ∨
    (taken = true ∧ target.toNat % 4 = 0 ∧ branchTo taken target s = .next (s.retire target)) ∨
    (taken = false ∧ branchTo taken target s = .next (s.retire s.nextPc)) := by
  unfold branchTo
  cases taken with
  | false => exact .inr (.inr ⟨rfl, rfl⟩)
  | true =>
    rcases transfer_cases target s s with ⟨h, e⟩ | ⟨h, e⟩
    · exact .inl ⟨rfl, h, by simpa using e⟩
    · exact .inr (.inl ⟨rfl, h, by simpa using e⟩)

/-- A CSR access always retires. -/
theorem csrAccess_eq_next {rd : RegNum} {a : CsrNum} {u : Word → Word} {s t : State}
    (h : csrAccess rd a u s = .next t) :
    t = ((s.writeCsr a (u (s.readCsr a))).writeReg rd (s.readCsr a)).retire s.nextPc :=
  (Host.Outcome.next.inj h).symm

end Sys2Proof.Machine
end

