-- ==== Sys2Proof/Laws/Exec.lean ====
section
/-! SUPPORT. What the execution of one instruction, and a step, can do, said once: every instruction ends in one of
the shapes of `Ends`, and always in a next state. -/

namespace Sys2Proof.Machine

/-- The ways an instruction ends, each with what it leaves and which instructions end so. -/
inductive Ends (i : Instr) (s : State) : State → Prop where
  /-- A load or store whose access raises (R161). -/
  | accessStops (w : Width) (ea : Word) (c : Condition) (ha : s.dataAccess i = some (w, ea))
      (hc : accessCondition w ea s.mem = some c)
      (hg : i.group = .load ∨ i.group = .store) (hw : w = .byte ∨ ∃ rd rs1 imm, i = .lh rd rs1 imm ∨
        i = .lhu rd rs1 imm ∨ i = .lw rd rs1 imm ∨ i = .sh rd rs1 imm ∨ i = .sw rd rs1 imm) :
      Ends i s (s.halt c)
  /-- A jump, or a taken branch, whose target is not a multiple of 4 (R180). -/
  | transferStops (target : Word) (ht : target.toNat % 4 ≠ 0) (hg : i.group = .jump ∨ i.group = .branch)
      (hk : (∃ rd offset, i = .jal rd offset ∧ target = s.jalTarget offset) ∨
        (∃ rd rs1 imm, i = .jalr rd rs1 imm ∧ target = s.jalrTarget rs1 imm) ∨
        ∃ rs1 rs2 offset, (i = .beq rs1 rs2 offset ∨ i = .bne rs1 rs2 offset ∨ i = .blt rs1 rs2 offset ∨
          i = .bltu rs1 rs2 offset ∨ i = .bge rs1 rs2 offset ∨ i = .bgeu rs1 rs2 offset) ∧
          target = s.branchTarget offset) :
      Ends i s (s.halt (.instructionAddressMisaligned target))
  /-- The result goes to the destination register, the pc to the next instruction. -/
  | writesBack (rd : RegNum) (v : Word) (hd : i.destination = some rd)
      (hg : i.group = .integerRegister ∨ i.group = .integerImmediate ∨ i.group = .load) :
      Ends i s ((s.writeReg rd v).retire s.nextPc)
  /-- A jump that is made. -/
  | jumps (rd : RegNum) (target : Word) (ht : target.toNat % 4 = 0) (hd : i.destination = some rd)
      (hg : i.group = .jump) : Ends i s ((s.writeReg rd s.nextPc).retire target)
  /-- A branch that is taken. -/
  | branches (target : Word) (ht : target.toNat % 4 = 0) (hg : i.group = .branch) : Ends i s (s.retire target)
  /-- A branch that is not taken, or a fence. -/
  | fallsThrough (hg : i.group = .branch ∨ i.group = .fence) : Ends i s (s.retire s.nextPc)
  /-- A store that is made. -/
  | stores (w : Width) (ea v : Word) (ha : accessCondition w ea s.mem = none) (hg : i.group = .store) :
      Ends i s ((s.withMem (s.mem.writeBytes ea.toNat v w.bytes)).retire s.nextPc)
  /-- A CSR access. -/
  | modifiesCsr (rd : RegNum) (a : CsrNum) (v : Word) (hd : i.destination = some rd) (hg : i.group = .csr) :
      Ends i s (((s.writeCsr a v).writeReg rd (s.readCsr a)).retire s.nextPc)
  /-- ECALL or EBREAK. -/
  | signals (g : EnvSignal) (hg : i.group = .environment) (hi : g = .envCall ↔ i = .ecall) :
      Ends i s (s.retireWith s.nextPc (some g))

theorem ends_writeBack {i : Instr} {s : State} {rd : RegNum} {v : Word} (he : exec i s = writeBack rd v s)
    (hd : i.destination = some rd)
    (hg : i.group = .integerRegister ∨ i.group = .integerImmediate ∨ i.group = .load) :
    ∃ t, exec i s = .next t ∧ Ends i s t :=
  ⟨_, he, .writesBack rd v hd hg⟩

theorem ends_loadInto {i : Instr} {s : State} {rd : RegNum} {w : Width} {ea : Word} {e : BitVec w.bits → Word}
    (he : exec i s = loadInto rd w ea e s) (ha : s.dataAccess i = some (w, ea))
    (hd : i.destination = some rd) (hg : i.group = .load)
    (hw : w = .byte ∨ ∃ rd rs1 imm, i = .lh rd rs1 imm ∨
      i = .lhu rd rs1 imm ∨ i = .lw rd rs1 imm ∨ i = .sh rd rs1 imm ∨ i = .sw rd rs1 imm) :
    ∃ t, exec i s = .next t ∧ Ends i s t := by
  rcases loadInto_cases rd w ea e s with ⟨c, hc, h⟩ | ⟨-, h⟩
  · exact ⟨_, he.trans h, .accessStops w ea c ha hc (.inl hg) hw⟩
  · exact ⟨_, he.trans h, .writesBack rd _ hd (.inr (.inr hg))⟩

theorem ends_storeFrom {i : Instr} {s : State} {w : Width} {ea v : Word} (he : exec i s = storeFrom w ea v s)
    (ha : s.dataAccess i = some (w, ea))
    (hg : i.group = .store) (hw : w = .byte ∨ ∃ rd rs1 imm, i = .lh rd rs1 imm ∨
      i = .lhu rd rs1 imm ∨ i = .lw rd rs1 imm ∨ i = .sh rd rs1 imm ∨ i = .sw rd rs1 imm) :
    ∃ t, exec i s = .next t ∧ Ends i s t := by
  rcases storeFrom_cases w ea v s with ⟨c, hc, h⟩ | ⟨hn, h⟩
  · exact ⟨_, he.trans h, .accessStops w ea c ha hc (.inr hg) hw⟩
  · exact ⟨_, he.trans h, .stores w ea v hn hg⟩

theorem ends_branchTo {i : Instr} {s : State} {taken : Bool} {rs1 rs2 : RegNum} {offset : BitVec 13}
    (he : exec i s = branchTo taken (s.branchTarget offset) s) (hg : i.group = .branch)
    (hi : i = .beq rs1 rs2 offset ∨ i = .bne rs1 rs2 offset ∨ i = .blt rs1 rs2 offset ∨
      i = .bltu rs1 rs2 offset ∨ i = .bge rs1 rs2 offset ∨ i = .bgeu rs1 rs2 offset) :
    ∃ t, exec i s = .next t ∧ Ends i s t := by
  rcases branchTo_cases taken (s.branchTarget offset) s with ⟨-, ht, h⟩ | ⟨-, ht, h⟩ | ⟨-, h⟩
  · exact ⟨_, he.trans h, .transferStops _ ht (.inr hg) (.inr (.inr ⟨rs1, rs2, offset, hi, rfl⟩))⟩
  · exact ⟨_, he.trans h, .branches _ ht hg⟩
  · exact ⟨_, he.trans h, .fallsThrough (.inl hg)⟩

/-- Every instruction ends in a next state, in one of the ways of `Ends`. -/
theorem exec_ends (i : Instr) (s : State) : ∃ t, exec i s = .next t ∧ Ends i s t := by
  cases i with
  | lb rd rs1 imm => exact ends_loadInto rfl rfl rfl rfl (.inl rfl)
  | lbu rd rs1 imm => exact ends_loadInto rfl rfl rfl rfl (.inl rfl)
  | lh rd rs1 imm => exact ends_loadInto rfl rfl rfl rfl (.inr ⟨rd, rs1, imm, by simp⟩)
  | lhu rd rs1 imm => exact ends_loadInto rfl rfl rfl rfl (.inr ⟨rd, rs1, imm, by simp⟩)
  | lw rd rs1 imm => exact ends_loadInto rfl rfl rfl rfl (.inr ⟨rd, rs1, imm, by simp⟩)
  | sb rs2 rs1 imm => exact ends_storeFrom rfl rfl rfl (.inl rfl)
  | sh rs2 rs1 imm => exact ends_storeFrom rfl rfl rfl (.inr ⟨rs2, rs1, imm, by simp⟩)
  | sw rs2 rs1 imm => exact ends_storeFrom rfl rfl rfl (.inr ⟨rs2, rs1, imm, by simp⟩)
  | jal rd offset =>
    rcases transfer_cases (s.jalTarget offset) (s.writeReg rd s.nextPc) s with ⟨ht, h⟩ | ⟨ht, h⟩
    · exact ⟨_, h, .transferStops _ ht (.inl rfl) (.inl ⟨rd, offset, rfl, rfl⟩)⟩
    · exact ⟨_, h, .jumps rd _ ht rfl rfl⟩
  | jalr rd rs1 imm =>
    rcases transfer_cases (s.jalrTarget rs1 imm) (s.writeReg rd s.nextPc) s with ⟨ht, h⟩ | ⟨ht, h⟩
    · exact ⟨_, h, .transferStops _ ht (.inl rfl) (.inr (.inl ⟨rd, rs1, imm, rfl, rfl⟩))⟩
    · exact ⟨_, h, .jumps rd _ ht rfl rfl⟩
  | beq rs1 rs2 offset => exact ends_branchTo (rs1 := rs1) (rs2 := rs2) rfl rfl (by simp)
  | bne rs1 rs2 offset => exact ends_branchTo (rs1 := rs1) (rs2 := rs2) rfl rfl (by simp)
  | blt rs1 rs2 offset => exact ends_branchTo (rs1 := rs1) (rs2 := rs2) rfl rfl (by simp)
  | bltu rs1 rs2 offset => exact ends_branchTo (rs1 := rs1) (rs2 := rs2) rfl rfl (by simp)
  | bge rs1 rs2 offset => exact ends_branchTo (rs1 := rs1) (rs2 := rs2) rfl rfl (by simp)
  | bgeu rs1 rs2 offset => exact ends_branchTo (rs1 := rs1) (rs2 := rs2) rfl rfl (by simp)
  | csrrw rd a _ => exact ⟨_, rfl, .modifiesCsr rd a _ rfl rfl⟩
  | csrrs rd a _ => exact ⟨_, rfl, .modifiesCsr rd a _ rfl rfl⟩
  | csrrc rd a _ => exact ⟨_, rfl, .modifiesCsr rd a _ rfl rfl⟩
  | csrrwi rd a _ => exact ⟨_, rfl, .modifiesCsr rd a _ rfl rfl⟩
  | csrrsi rd a _ => exact ⟨_, rfl, .modifiesCsr rd a _ rfl rfl⟩
  | csrrci rd a _ => exact ⟨_, rfl, .modifiesCsr rd a _ rfl rfl⟩
  | fence => exact ⟨_, rfl, .fallsThrough (.inr rfl)⟩
  | fenceI => exact ⟨_, rfl, .fallsThrough (.inr rfl)⟩
  | ecall => exact ⟨_, rfl, .signals .envCall rfl (by simp)⟩
  | ebreak => exact ⟨_, rfl, .signals .envBreak rfl (by simp)⟩
  | add | sub | sll | slt | sltu | xor | srl | sra | or | and =>
    exact ends_writeBack rfl rfl (.inl rfl)
  | addi | slti | sltiu | xori | ori | andi | slli | srli | srai | lui | auipc =>
    exact ends_writeBack rfl rfl (.inr (.inl rfl))

/-- What a step can do: nothing in Fatal; in Running, stop on a bad fetch, stop on an illegal word, or execute the
decoded instruction. -/
theorem step_cases (s : State) :
    (∃ record, s.status = .fatal record ∧ step s = .fault (.noStepInFatal record)) ∨
    (s.status = .running ∧ s.mem.size < s.pc.toNat + 4 ∧ step s = .next (s.halt (.outOfBounds s.pc))) ∨
    (∃ e, s.status = .running ∧ s.pc.toNat + 4 ≤ s.mem.size ∧
      decodeWord (s.mem.read s.pc.toNat .word) = .error e ∧ step s = .next (s.halt .illegalInstruction)) ∨
    (∃ i, s.status = .running ∧ s.pc.toNat + 4 ≤ s.mem.size ∧
      decodeWord (s.mem.read s.pc.toNat .word) = .ok i ∧ s.fetchDecode = .ok i ∧ step s = exec i s) := by
  unfold step State.fetchDecode
  cases hs : s.status with
  | fatal record => exact .inl ⟨record, rfl, rfl⟩
  | running =>
    rcases fetch_cases s.pc s.mem with ⟨hlt, hf⟩ | ⟨hle, hf⟩
    · exact .inr (.inl ⟨rfl, hlt, by simp only [hf]; rfl⟩)
    · cases hd : decodeWord (s.mem.read s.pc.toNat .word) with
      | error e => exact .inr (.inr (.inl ⟨e, rfl, hle, rfl, by simp only [hf, hd]; rfl⟩))
      | ok i => exact .inr (.inr (.inr ⟨i, rfl, hle, rfl, by simp only [hf, hd], by simp only [hf, hd]⟩))

end Sys2Proof.Machine
end

