-- ==== Sys2Proof/Laws/Operands.lean ====
section
/-! SUPPORT. The operand forms as numbers and as bits: one lemma for each reading of spec/00_scope.md R9 that a
statement uses. -/

namespace Sys2Proof.Machine

/-- A sign-extended immediate has the value of its field (R84). -/
@[simp] theorem toInt_imm12 (imm : BitVec 12) : (imm12 imm).toInt = imm.toInt :=
  BitVec.toInt_signExtend_of_le (by omega)

/-- Read unsigned, it is that value modulo 2^32 (R143). -/
theorem toNat_imm12 (imm : BitVec 12) : ((imm12 imm).toNat : Int) = imm.toInt % 2 ^ 32 := by
  have h := (imm12 imm).isLt
  rw [← toInt_imm12, BitVec.toInt_eq_toNat_cond]
  split_ifs <;> omega

/-- Bits 31 to 12 are copies of bit 11 (R10). -/
theorem getLsbD_imm12 (imm : BitVec 12) {i : Nat} (h : i < 32) :
    (imm12 imm).getLsbD i = imm.getLsbD (min i 11) := by
  rw [imm12, BitVec.getLsbD_signExtend]
  simp only [h, decide_true, Bool.true_and]
  split
  · rw [Nat.min_eq_left (by omega)]
  · rw [Nat.min_eq_right (by omega), BitVec.msb_eq_getLsbD_last]

@[simp] theorem toInt_immB (offset : BitVec 13) : (immB offset).toInt = offset.toInt :=
  BitVec.toInt_signExtend_of_le (by omega)

@[simp] theorem toInt_immJ (offset : BitVec 21) : (immJ offset).toInt = offset.toInt :=
  BitVec.toInt_signExtend_of_le (by omega)

/-- Bits 31 to 13 of a branch offset are copies of bit 12 (R86). -/
theorem getLsbD_immB (offset : BitVec 13) {i : Nat} (h : i < 32) :
    (immB offset).getLsbD i = offset.getLsbD (min i 12) := by
  rw [immB, BitVec.getLsbD_signExtend]
  simp only [h, decide_true, Bool.true_and]
  split
  · rw [Nat.min_eq_left (by omega)]
  · rw [Nat.min_eq_right (by omega), BitVec.msb_eq_getLsbD_last]

/-- Bits 31 to 21 of a JAL offset are copies of bit 20 (R88). -/
theorem getLsbD_immJ (offset : BitVec 21) {i : Nat} (h : i < 32) :
    (immJ offset).getLsbD i = offset.getLsbD (min i 20) := by
  rw [immJ, BitVec.getLsbD_signExtend]
  simp only [h, decide_true, Bool.true_and]
  split
  · rw [Nat.min_eq_left (by omega)]
  · rw [Nat.min_eq_right (by omega), BitVec.msb_eq_getLsbD_last]

/-- An even offset is an even number (R91). -/
theorem toNat_mod_two_of_evenOffset {n : Nat} {offset : BitVec n} (h : evenOffset offset = true) :
    offset.toNat % 2 = 0 := by
  simp only [evenOffset, Bool.not_eq_true', BitVec.getLsbD, Nat.testBit_zero, decide_eq_false_iff_not] at h
  omega

/-- The U immediate is its field times 2^12 (R87). -/
@[simp] theorem toNat_immU (imm20 : BitVec 20) : (immU imm20).toNat = imm20.toNat * 2 ^ 12 := by
  change (imm20 ++ 0#12 : BitVec (20 + 12)).toNat = _
  rw [BitVec.toNat_append]
  simp [Nat.shiftLeft_eq]

/-- The register shift amount is the register modulo 32 (R123). -/
@[simp] theorem toNat_regShamt (v : Word) : (regShamt v).toNat = v.toNat % 32 := by simp [regShamt]

/-- A sum of an address and a signed displacement, modulo 2^32. -/
theorem add_eq_ofInt (a b : Word) : a + b = BitVec.ofInt 32 ((a.toNat : Int) + b.toInt) := by
  rw [BitVec.ofInt_add]; simp

/-- The little-endian halfword as a number (R52). -/
theorem Memory.toNat_read_half (m : Memory) (a : Nat) :
    (m.read a .half).toNat = (m.byte a).toNat + 2 ^ 8 * (m.byte (a + 1)).toNat := by
  change (m.byte (a + 1) ++ m.byte a : BitVec (8 + 8)).toNat = _
  rw [BitVec.toNat_append, Nat.shiftLeft_eq, Nat.mul_comm, ← Nat.two_pow_add_eq_or_of_lt (m.byte a).isLt]
  omega

/-- The little-endian word as a number (R52). -/
theorem Memory.toNat_read_word (m : Memory) (a : Nat) :
    (m.read a .word).toNat = (m.byte a).toNat + 2 ^ 8 * (m.byte (a + 1)).toNat +
      2 ^ 16 * (m.byte (a + 2)).toNat + 2 ^ 24 * (m.byte (a + 3)).toNat := by
  change (m.byte (a + 3) ++ m.byte (a + 2) ++ m.byte (a + 1) ++ m.byte a : BitVec (8 + 8 + 8 + 8)).toNat = _
  rw [BitVec.toNat_append, Nat.shiftLeft_eq, Nat.mul_comm, ← Nat.two_pow_add_eq_or_of_lt (m.byte a).isLt]
  rw [BitVec.toNat_append, Nat.shiftLeft_eq, Nat.mul_comm _ (2 ^ 8),
    ← Nat.two_pow_add_eq_or_of_lt (m.byte (a + 1)).isLt]
  rw [BitVec.toNat_append, Nat.shiftLeft_eq, Nat.mul_comm _ (2 ^ 8),
    ← Nat.two_pow_add_eq_or_of_lt (m.byte (a + 2)).isLt]
  omega

end Sys2Proof.Machine
end

