-- ==== Sys2Proof/Laws/PerInstr.lean ====
section
/-! SUPPORT. Per-instruction laws, one lemma a constructor. TableRow: the encoding of the instruction is a word of
its row of the opcode map, that is, the masked word is the row's match value (spec/30_encoding.md R95 to R102). -/

namespace Sys2Proof.Laws.TableRow

/-- The encoded word has the fixed bits of the instruction's row of the opcode map. -/
def Statement (i : Instr) : Prop := encode i &&& (tableRow i).mask = (tableRow i).bits

theorem addi (rd : RegNum) (rs1 : RegNum) (imm : BitVec 12) : Statement (.addi rd rs1 imm) :=
  (encodeI_and_mask _ _ _ _ _).trans (by simp only [tableRow]; decide)

theorem slti (rd : RegNum) (rs1 : RegNum) (imm : BitVec 12) : Statement (.slti rd rs1 imm) :=
  (encodeI_and_mask _ _ _ _ _).trans (by simp only [tableRow]; decide)

theorem sltiu (rd : RegNum) (rs1 : RegNum) (imm : BitVec 12) : Statement (.sltiu rd rs1 imm) :=
  (encodeI_and_mask _ _ _ _ _).trans (by simp only [tableRow]; decide)

theorem xori (rd : RegNum) (rs1 : RegNum) (imm : BitVec 12) : Statement (.xori rd rs1 imm) :=
  (encodeI_and_mask _ _ _ _ _).trans (by simp only [tableRow]; decide)

theorem ori (rd : RegNum) (rs1 : RegNum) (imm : BitVec 12) : Statement (.ori rd rs1 imm) :=
  (encodeI_and_mask _ _ _ _ _).trans (by simp only [tableRow]; decide)

theorem andi (rd : RegNum) (rs1 : RegNum) (imm : BitVec 12) : Statement (.andi rd rs1 imm) :=
  (encodeI_and_mask _ _ _ _ _).trans (by simp only [tableRow]; decide)

theorem slli (rd : RegNum) (rs1 : RegNum) (shamt : BitVec 5) : Statement (.slli rd rs1 shamt) :=
  (encodeR_and_mask _ _ _ _ _ _).trans (by simp only [tableRow]; decide)

theorem srli (rd : RegNum) (rs1 : RegNum) (shamt : BitVec 5) : Statement (.srli rd rs1 shamt) :=
  (encodeR_and_mask _ _ _ _ _ _).trans (by simp only [tableRow]; decide)

theorem srai (rd : RegNum) (rs1 : RegNum) (shamt : BitVec 5) : Statement (.srai rd rs1 shamt) :=
  (encodeR_and_mask _ _ _ _ _ _).trans (by simp only [tableRow]; decide)

theorem lui (rd : RegNum) (imm20 : BitVec 20) : Statement (.lui rd imm20) :=
  (encodeU_and_mask _ _ _).trans (by simp only [tableRow]; decide)

theorem auipc (rd : RegNum) (imm20 : BitVec 20) : Statement (.auipc rd imm20) :=
  (encodeU_and_mask _ _ _).trans (by simp only [tableRow]; decide)

theorem add (rd : RegNum) (rs1 : RegNum) (rs2 : RegNum) : Statement (.add rd rs1 rs2) :=
  (encodeR_and_mask _ _ _ _ _ _).trans (by simp only [tableRow]; decide)

theorem sub (rd : RegNum) (rs1 : RegNum) (rs2 : RegNum) : Statement (.sub rd rs1 rs2) :=
  (encodeR_and_mask _ _ _ _ _ _).trans (by simp only [tableRow]; decide)

theorem sll (rd : RegNum) (rs1 : RegNum) (rs2 : RegNum) : Statement (.sll rd rs1 rs2) :=
  (encodeR_and_mask _ _ _ _ _ _).trans (by simp only [tableRow]; decide)

theorem slt (rd : RegNum) (rs1 : RegNum) (rs2 : RegNum) : Statement (.slt rd rs1 rs2) :=
  (encodeR_and_mask _ _ _ _ _ _).trans (by simp only [tableRow]; decide)

theorem sltu (rd : RegNum) (rs1 : RegNum) (rs2 : RegNum) : Statement (.sltu rd rs1 rs2) :=
  (encodeR_and_mask _ _ _ _ _ _).trans (by simp only [tableRow]; decide)

theorem xor (rd : RegNum) (rs1 : RegNum) (rs2 : RegNum) : Statement (.xor rd rs1 rs2) :=
  (encodeR_and_mask _ _ _ _ _ _).trans (by simp only [tableRow]; decide)

theorem srl (rd : RegNum) (rs1 : RegNum) (rs2 : RegNum) : Statement (.srl rd rs1 rs2) :=
  (encodeR_and_mask _ _ _ _ _ _).trans (by simp only [tableRow]; decide)

theorem sra (rd : RegNum) (rs1 : RegNum) (rs2 : RegNum) : Statement (.sra rd rs1 rs2) :=
  (encodeR_and_mask _ _ _ _ _ _).trans (by simp only [tableRow]; decide)

theorem or (rd : RegNum) (rs1 : RegNum) (rs2 : RegNum) : Statement (.or rd rs1 rs2) :=
  (encodeR_and_mask _ _ _ _ _ _).trans (by simp only [tableRow]; decide)

theorem and (rd : RegNum) (rs1 : RegNum) (rs2 : RegNum) : Statement (.and rd rs1 rs2) :=
  (encodeR_and_mask _ _ _ _ _ _).trans (by simp only [tableRow]; decide)

theorem jal (rd : RegNum) (offset : BitVec 21) : Statement (.jal rd offset) :=
  (encodeJ_and_mask _ _ _).trans (by simp only [tableRow]; decide)

theorem jalr (rd : RegNum) (rs1 : RegNum) (imm : BitVec 12) : Statement (.jalr rd rs1 imm) :=
  (encodeI_and_mask _ _ _ _ _).trans (by simp only [tableRow]; decide)

theorem beq (rs1 : RegNum) (rs2 : RegNum) (offset : BitVec 13) : Statement (.beq rs1 rs2 offset) :=
  (encodeB_and_mask _ _ _ _ _).trans (by simp only [tableRow]; decide)

theorem bne (rs1 : RegNum) (rs2 : RegNum) (offset : BitVec 13) : Statement (.bne rs1 rs2 offset) :=
  (encodeB_and_mask _ _ _ _ _).trans (by simp only [tableRow]; decide)

theorem blt (rs1 : RegNum) (rs2 : RegNum) (offset : BitVec 13) : Statement (.blt rs1 rs2 offset) :=
  (encodeB_and_mask _ _ _ _ _).trans (by simp only [tableRow]; decide)

theorem bltu (rs1 : RegNum) (rs2 : RegNum) (offset : BitVec 13) : Statement (.bltu rs1 rs2 offset) :=
  (encodeB_and_mask _ _ _ _ _).trans (by simp only [tableRow]; decide)

theorem bge (rs1 : RegNum) (rs2 : RegNum) (offset : BitVec 13) : Statement (.bge rs1 rs2 offset) :=
  (encodeB_and_mask _ _ _ _ _).trans (by simp only [tableRow]; decide)

theorem bgeu (rs1 : RegNum) (rs2 : RegNum) (offset : BitVec 13) : Statement (.bgeu rs1 rs2 offset) :=
  (encodeB_and_mask _ _ _ _ _).trans (by simp only [tableRow]; decide)

theorem lb (rd : RegNum) (rs1 : RegNum) (imm : BitVec 12) : Statement (.lb rd rs1 imm) :=
  (encodeI_and_mask _ _ _ _ _).trans (by simp only [tableRow]; decide)

theorem lbu (rd : RegNum) (rs1 : RegNum) (imm : BitVec 12) : Statement (.lbu rd rs1 imm) :=
  (encodeI_and_mask _ _ _ _ _).trans (by simp only [tableRow]; decide)

theorem lh (rd : RegNum) (rs1 : RegNum) (imm : BitVec 12) : Statement (.lh rd rs1 imm) :=
  (encodeI_and_mask _ _ _ _ _).trans (by simp only [tableRow]; decide)

theorem lhu (rd : RegNum) (rs1 : RegNum) (imm : BitVec 12) : Statement (.lhu rd rs1 imm) :=
  (encodeI_and_mask _ _ _ _ _).trans (by simp only [tableRow]; decide)

theorem lw (rd : RegNum) (rs1 : RegNum) (imm : BitVec 12) : Statement (.lw rd rs1 imm) :=
  (encodeI_and_mask _ _ _ _ _).trans (by simp only [tableRow]; decide)

theorem sb (rs2 : RegNum) (rs1 : RegNum) (imm : BitVec 12) : Statement (.sb rs2 rs1 imm) :=
  (encodeS_and_mask _ _ _ _ _).trans (by simp only [tableRow]; decide)

theorem sh (rs2 : RegNum) (rs1 : RegNum) (imm : BitVec 12) : Statement (.sh rs2 rs1 imm) :=
  (encodeS_and_mask _ _ _ _ _).trans (by simp only [tableRow]; decide)

theorem sw (rs2 : RegNum) (rs1 : RegNum) (imm : BitVec 12) : Statement (.sw rs2 rs1 imm) :=
  (encodeS_and_mask _ _ _ _ _).trans (by simp only [tableRow]; decide)

theorem fence : Statement (.fence) :=
  by unfold Statement; decide

theorem fenceI : Statement (.fenceI) :=
  by unfold Statement; decide

theorem csrrw (rd : RegNum) (csr : CsrNum) (rs1 : RegNum) : Statement (.csrrw rd csr rs1) :=
  (encodeI_and_mask _ _ _ _ _).trans (by simp only [tableRow]; decide)

theorem csrrs (rd : RegNum) (csr : CsrNum) (rs1 : RegNum) : Statement (.csrrs rd csr rs1) :=
  (encodeI_and_mask _ _ _ _ _).trans (by simp only [tableRow]; decide)

theorem csrrc (rd : RegNum) (csr : CsrNum) (rs1 : RegNum) : Statement (.csrrc rd csr rs1) :=
  (encodeI_and_mask _ _ _ _ _).trans (by simp only [tableRow]; decide)

theorem csrrwi (rd : RegNum) (csr : CsrNum) (uimm : BitVec 5) : Statement (.csrrwi rd csr uimm) :=
  (encodeI_and_mask _ _ _ _ _).trans (by simp only [tableRow]; decide)

theorem csrrsi (rd : RegNum) (csr : CsrNum) (uimm : BitVec 5) : Statement (.csrrsi rd csr uimm) :=
  (encodeI_and_mask _ _ _ _ _).trans (by simp only [tableRow]; decide)

theorem csrrci (rd : RegNum) (csr : CsrNum) (uimm : BitVec 5) : Statement (.csrrci rd csr uimm) :=
  (encodeI_and_mask _ _ _ _ _).trans (by simp only [tableRow]; decide)

theorem ecall : Statement (.ecall) :=
  by unfold Statement; decide

theorem ebreak : Statement (.ebreak) :=
  by unfold Statement; decide

end Sys2Proof.Laws.TableRow
end

