-- ==== Sys2Proof/Laws/Reaches.lean ====
section
/-! SUPPORT. Induction over runs, packaged once: what holds at the start and is kept by every step holds of every
state a run reaches. -/

namespace Sys2Proof.Machine

theorem Reaches.induction {s : State} {P : State → Prop} (h0 : P s)
    (hstep : ∀ t u, P t → step t = .next u → P u) : ∀ {t}, Reaches s t → P t := by
  intro t h
  induction h with
  | refl => exact h0
  | tail _ hu ih => exact hstep _ _ ih hu

/-- Runs compose. -/
theorem Reaches.trans {s t u : State} (h : Reaches s t) (h' : Reaches t u) : Reaches s u := by
  induction h' with
  | refl => exact h
  | tail _ hu ih => exact .tail ih hu

/-- Safety is inherited by every state of the run. -/
theorem SafeFrom.of_reaches {s t : State} (hs : SafeFrom s) (h : Reaches s t) : SafeFrom t :=
  fun _ hu => hs _ (h.trans hu)

end Sys2Proof.Machine
end

