-- ==== Sys2Proof/Laws/Results.lean ====
section
/-! SUPPORT. The end of each kind of instruction, in the terms of Safety.lean: what retiring with a register
result, retiring with a pc alone and stopping leave. -/

namespace Sys2Proof.Machine

theorem registerResult_writeReg_retire (s : State) (rd : RegNum) (v next : Word) :
    RegisterResult s ((s.writeReg rd v).retire next) rd v next where
  pc := by simp
  status := by simp
  signal := rfl
  regs := fun r => by simp only [State.readReg_retire, State.readReg_writeReg]
  csrs := fun a => by simp
  mem := ⟨by simp, fun a => by simp⟩

theorem pcResult_retire (s : State) (next : Word) : PcResult s (s.retire next) next where
  pc := rfl
  status := rfl
  signal := rfl
  regs := fun _ => rfl
  csrs := fun _ => rfl
  mem := ⟨rfl, fun _ => rfl⟩

theorem stopped_halt (s : State) (c : Condition) : Stopped s (s.halt c) c where
  status := rfl
  pc := rfl
  regs := fun _ => rfl
  csrs := fun _ => rfl
  mem := ⟨rfl, fun _ => rfl⟩
  signal := rfl

/-- An instruction that is a load stops on a bad access. -/
theorem stopsOnBadAccess_loadInto {i : Instr} {s : State} {rd : RegNum} {w : Width} {ea : Word}
    {e : BitVec w.bits → Word} (h : exec i s = loadInto rd w ea e s) : StopsOnBadAccess i s w ea := by
  refine ⟨fun h1 => ?_, fun h1 h2 => ?_⟩
  · have hc := accessCondition_eq_some (m := s.mem).mpr (.inl ⟨h1, rfl⟩)
    exact ⟨_, h.trans (by simp only [loadInto, memRead, hc, raise]), stopped_halt ..⟩
  · have hc := accessCondition_eq_some.mpr (.inr ⟨h1, h2, rfl⟩)
    exact ⟨_, h.trans (by simp only [loadInto, memRead, hc, raise]), stopped_halt ..⟩

/-- An instruction that is a store stops on a bad access. -/
theorem stopsOnBadAccess_storeFrom {i : Instr} {s : State} {w : Width} {ea v : Word}
    (h : exec i s = storeFrom w ea v s) : StopsOnBadAccess i s w ea := by
  refine ⟨fun h1 => ?_, fun h1 h2 => ?_⟩
  · have hc := accessCondition_eq_some (m := s.mem).mpr (.inl ⟨h1, rfl⟩)
    exact ⟨_, h.trans (by simp only [storeFrom, memWrite, hc, raise]), stopped_halt ..⟩
  · have hc := accessCondition_eq_some.mpr (.inr ⟨h1, h2, rfl⟩)
    exact ⟨_, h.trans (by simp only [storeFrom, memWrite, hc, raise]), stopped_halt ..⟩

end Sys2Proof.Machine
end

