-- ==== Sys2Proof/Tests/Slice0.lean ====
section
/-! SUPPORT. Tests, each on one word or one step, and the witnesses: for every statement that has hypotheses, a
state and operands that meet them. Expected results are those of spec/95_test_vectors.md (V<n>) or written out from
the named rules. -/

open Sys2Proof Sys2Proof.Machine

namespace Sys2Proof.Tests

/-! ### Well-formedness: an odd offset is refused (R91) -/

theorem test_jal_odd_offset_refused : (Instr.jal 1 3).wf = false := by decide
theorem test_beq_odd_offset_refused : (Instr.beq 1 2 (-7)).wf = false := by decide
theorem test_bne_odd_offset_refused : (Instr.bne 1 2 (-7)).wf = false := by decide
theorem test_blt_odd_offset_refused : (Instr.blt 1 2 (-7)).wf = false := by decide
theorem test_bltu_odd_offset_refused : (Instr.bltu 1 2 (-7)).wf = false := by decide
theorem test_bge_odd_offset_refused : (Instr.bge 1 2 (-7)).wf = false := by decide
theorem test_bgeu_odd_offset_refused : (Instr.bgeu 1 2 (-7)).wf = false := by decide
theorem test_even_offset_accepted : (Instr.jal 1 (-1048576)).wf = true ∧ (Instr.bgeu 1 2 4094).wf = true := by decide

/-! ### Decoding: words written out field by field, most significant bit first -/

/-- R95: funct7, rs2, rs1, funct3, rd, opcode 0x33. -/
theorem test_decode_op :
    decodeWord 0b0000000_11110_10001_000_00011_0110011 = .ok (.add 3 17 30) ∧
    decodeWord 0b0100000_11110_10001_000_00011_0110011 = .ok (.sub 3 17 30) ∧
    decodeWord 0b0000000_11110_10001_001_00011_0110011 = .ok (.sll 3 17 30) ∧
    decodeWord 0b0000000_11110_10001_010_00011_0110011 = .ok (.slt 3 17 30) ∧
    decodeWord 0b0000000_11110_10001_011_00011_0110011 = .ok (.sltu 3 17 30) ∧
    decodeWord 0b0000000_11110_10001_100_00011_0110011 = .ok (.xor 3 17 30) ∧
    decodeWord 0b0000000_11110_10001_101_00011_0110011 = .ok (.srl 3 17 30) ∧
    decodeWord 0b0100000_11110_10001_101_00011_0110011 = .ok (.sra 3 17 30) ∧
    decodeWord 0b0000000_11110_10001_110_00011_0110011 = .ok (.or 3 17 30) ∧
    decodeWord 0b0000000_11110_10001_111_00011_0110011 = .ok (.and 3 17 30) := by
  and_intros <;> decide

/-- R96, R89, R94: imm, rs1, funct3, rd, opcode 0x13; the shifts have funct7 and shamt; LUI 0x37, AUIPC 0x17. -/
theorem test_decode_op_imm :
    decodeWord 0b100000000000_10010_000_01001_0010011 = .ok (.addi 9 18 (-2048)) ∧
    decodeWord 0b011111111111_10010_010_01001_0010011 = .ok (.slti 9 18 2047) ∧
    decodeWord 0b111111111111_10010_011_01001_0010011 = .ok (.sltiu 9 18 (-1)) ∧
    decodeWord 0b010101010101_10010_100_01001_0010011 = .ok (.xori 9 18 1365) ∧
    decodeWord 0b101010101010_10010_110_01001_0010011 = .ok (.ori 9 18 (-1366)) ∧
    decodeWord 0b000000000001_10010_111_01001_0010011 = .ok (.andi 9 18 1) ∧
    decodeWord 0b0000000_10011_10010_001_01001_0010011 = .ok (.slli 9 18 19) ∧
    decodeWord 0b0000000_10011_10010_101_01001_0010011 = .ok (.srli 9 18 19) ∧
    decodeWord 0b0100000_10011_10010_101_01001_0010011 = .ok (.srai 9 18 19) ∧
    decodeWord 0b00010010001101000101_10101_0110111 = .ok (.lui 21 0x12345) ∧
    decodeWord 0b11111110110111001011_10110_0010111 = .ok (.auipc 22 0xFEDCB) := by
  and_intros <;> decide

/-- R97: imm, rs1, funct3, rd, opcode 0x03. -/
theorem test_decode_load :
    decodeWord 0b111111101011_11001_000_00110_0000011 = .ok (.lb 6 25 (-21)) ∧
    decodeWord 0b111111101011_11001_001_00110_0000011 = .ok (.lh 6 25 (-21)) ∧
    decodeWord 0b111111101011_11001_010_00110_0000011 = .ok (.lw 6 25 (-21)) ∧
    decodeWord 0b111111101011_11001_100_00110_0000011 = .ok (.lbu 6 25 (-21)) ∧
    decodeWord 0b111111101011_11001_101_00110_0000011 = .ok (.lhu 6 25 (-21)) := by
  and_intros <;> decide

/-- R98, R85: imm[11:5], rs2, rs1, funct3, imm[4:0], opcode 0x23. -/
theorem test_decode_store :
    decodeWord 0b1010101_00111_11010_000_01011_0100011 = .ok (.sb 7 26 (-1365)) ∧
    decodeWord 0b1010101_00111_11010_001_01011_0100011 = .ok (.sh 7 26 (-1365)) ∧
    decodeWord 0b1010101_00111_11010_010_01011_0100011 = .ok (.sw 7 26 (-1365)) := by decide

/-- R99, R86: imm[12], imm[10:5], rs2, rs1, funct3, imm[4:1], imm[11];
R88: imm[20], imm[10:1], imm[11], imm[19:12]; R100. -/
theorem test_decode_transfer :
    decodeWord 0b1_000000_10100_01011_000_0000_0_1100011 = .ok (.beq 11 20 (-4096)) ∧
    decodeWord 0b0_000000_10100_01011_001_0000_1_1100011 = .ok (.bne 11 20 2048) ∧
    decodeWord 0b0_010101_10100_01011_100_0101_0_1100011 = .ok (.blt 11 20 682) ∧
    decodeWord 0b1_010101_10100_01011_101_0110_1_1100011 = .ok (.bge 11 20 (-1364)) ∧
    decodeWord 0b0_111111_10100_01011_110_0000_0_1100011 = .ok (.bltu 11 20 2016) ∧
    decodeWord 0b0_000000_10100_01011_111_1111_0_1100011 = .ok (.bgeu 11 20 30) ∧
    decodeWord 0b1_1010101010_0_11010101_00001_1101111 = .ok (.jal 1 (-174764)) ∧
    decodeWord 0b0_0000000000_1_00000000_00001_1101111 = .ok (.jal 1 2048) ∧
    decodeWord 0b0_0000000000_0_11111111_11111_1101111 = .ok (.jal 31 1044480) ∧
    decodeWord 0b111111111101_11011_000_00010_1100111 = .ok (.jalr 2 27 (-3)) := by
  and_intros <;> decide

/-- R102, R90: csr, rs1 or uimm, funct3, rd, opcode 0x73. -/
theorem test_decode_csr :
    decodeWord 0b110000000001_11101_001_01010_1110011 = .ok (.csrrw 10 0xC01 29) ∧
    decodeWord 0b110000000001_11101_010_01010_1110011 = .ok (.csrrs 10 0xC01 29) ∧
    decodeWord 0b110000000001_11101_011_01010_1110011 = .ok (.csrrc 10 0xC01 29) ∧
    decodeWord 0b110000000001_11101_101_01010_1110011 = .ok (.csrrwi 10 0xC01 29) ∧
    decodeWord 0b110000000001_11101_110_01010_1110011 = .ok (.csrrsi 10 0xC01 29) ∧
    decodeWord 0b110000000001_11101_111_01010_1110011 = .ok (.csrrci 10 0xC01 29) := by
  and_intros <;> decide

/-- R101, R102. -/
theorem test_decode_fence_and_environment :
    decodeWord 0b0000_1111_1111_00000_000_00000_0001111 = .ok .fence ∧
    decodeWord 0b000000000000_00000_001_00000_0001111 = .ok .fenceI ∧
    decodeWord 0b000000000000_00000_000_00000_1110011 = .ok .ecall ∧
    decodeWord 0b000000000001_00000_000_00000_1110011 = .ok .ebreak := by
  and_intros <;> decide

/-- S5: the word with every B immediate bit set has offset -2. -/
theorem test_decode_branch_offset_parity : decodeWord 0xFFFFFFE3 = .ok (.bgeu 31 31 (-2)) := by decide

/-- V153 to V188: words one step outside the table are IllegalInstruction with the word. -/
theorem test_decode_illegal : ∀ w ∈ ([0x00000000, 0xFFFFFFFF, 0x00000573, 0x30200073, 0x00004073, 0x02208033,
    0x40001033, 0x02011093, 0x20015093, 0x0000200F, 0x00003003, 0x00003023, 0x00002063, 0x00001067,
    0x0000100B, 0x00000001] : List Word), decodeWord w = .error (.illegalInstruction w) := by
  intro w hw
  fin_cases hw <;> decide

/-- R52, R107: the first byte is the least significant, and an instruction takes four. -/
theorem test_decode_bytes : decode [0x93, 0x00, 0x10, 0x00, 0xAA] = .ok (.addi 1 0 1, [0xAA]) ∧
    decode [0x93, 0x00, 0x10] = .error .truncated := by decide

theorem test_decode_table_word : decodeTableWord 32 0x00100093 = some (.addi 1 0 1) ∧
    decodeTableWord 32 0x0000007F = none := by decide

/-! ### One step -/

/-- A state with the word at the pc, registers, CSRs and memory bytes set, all else as after reset. -/
def probe (word : Nat) (pc : Word) (regs : List (RegNum × Word)) (csrs : List (CsrNum × Word))
    (bytes : List (Nat × Byte)) : State :=
  let s := regs.foldl (fun (s : State) p => s.writeReg p.1 p.2) { State.reset with pc := pc }
  let s := csrs.foldl (fun (s : State) p => s.writeCsr p.1 p.2) s
  (s.withMem (bytes.foldl (fun (m : Memory) p => m.setByte p.1 p.2) s.mem)).withFetchWord 32 word

/-- M of spec/95_test_vectors.md: the six bytes of memory the load vectors read. -/
def loadBytes : List (Nat × Byte) :=
  [(0x100, 0xEF), (0x101, 0xBE), (0x102, 0xAD), (0x103, 0xDE), (0x104, 0x7F), (0x105, 0x80)]

/-- The step retires with this pc and signal, and leaves these registers, CSRs and bytes. -/
def retires (s : State) (pc : Word) (signal : Option EnvSignal) (regs : List (RegNum × Word))
    (csrs : List (CsrNum × Word)) (bytes : List (Nat × Byte)) : Bool :=
  match step s with
  | .next t => decide (t.status = .running) && decide (t.pc = pc) && decide (t.signal = signal) &&
      regs.all (fun p => decide (t.readReg p.1 = p.2)) && csrs.all (fun p => decide (t.readCsr p.1 = p.2)) &&
      bytes.all (fun p => decide (t.mem.byte p.1 = p.2))
  | .fault _ | .refused _ => false

/-- The step ends in Fatal with this condition, and nothing else has changed. -/
def stops (s : State) (c : Condition) : Bool :=
  match step s with
  | .next t => decide (t = s.halt c)
  | .fault _ | .refused _ => false

/-- V2. -/
theorem test_add_v2 :
    retires (probe 0x002081B3 0x0 [(1, 0xFFFFFFFF), (2, 0x1)] [] [])
      0x00000004 none [(3, 0x0)] [] [] = true := by decide
/-- V4. -/
theorem test_add_v4 :
    retires (probe 0x001080B3 0x0 [(1, 0x80000000)] [] [])
      0x00000004 none [(1, 0x0)] [] [] = true := by decide
/-- V5. -/
theorem test_sub_v5 :
    retires (probe 0x402081B3 0x0 [(1, 0x0), (2, 0x1)] [] [])
      0x00000004 none [(3, 0xFFFFFFFF)] [] [] = true := by decide
/-- V6. -/
theorem test_sub_v6 :
    retires (probe 0x402081B3 0x0 [(1, 0x80000000), (2, 0x1)] [] [])
      0x00000004 none [(3, 0x7FFFFFFF)] [] [] = true := by decide
/-- V8. -/
theorem test_sll_v8 :
    retires (probe 0x002091B3 0x0 [(1, 0x1), (2, 0x20)] [] [])
      0x00000004 none [(3, 0x1)] [] [] = true := by decide
/-- V9. -/
theorem test_sll_v9 :
    retires (probe 0x002091B3 0x0 [(1, 0xFFFFFFFF), (2, 0xFFFFFFE4)] [] [])
      0x00000004 none [(3, 0xFFFFFFF0)] [] [] = true := by decide
/-- V10. -/
theorem test_slt_v10 :
    retires (probe 0x0020A1B3 0x0 [(1, 0x80000000), (2, 0x0)] [] [])
      0x00000004 none [(3, 0x1)] [] [] = true := by decide
/-- V12. -/
theorem test_slt_v12 :
    retires (probe 0x0020A1B3 0x0 [(1, 0x7FFFFFFF), (2, 0x80000000)] [] [])
      0x00000004 none [(3, 0x0)] [] [] = true := by decide
/-- V14. -/
theorem test_sltu_v14 :
    retires (probe 0x0020B1B3 0x0 [(1, 0x80000000), (2, 0x0)] [] [])
      0x00000004 none [(3, 0x0)] [] [] = true := by decide
/-- V16. -/
theorem test_sltu_v16 :
    retires (probe 0x0020B1B3 0x0 [(1, 0x7FFFFFFF), (2, 0x80000000)] [] [])
      0x00000004 none [(3, 0x1)] [] [] = true := by decide
/-- V19. -/
theorem test_xor_v19 :
    retires (probe 0x0020C1B3 0x0 [(1, 0xFF00FF00), (2, 0xFF00FF0)] [] [])
      0x00000004 none [(3, 0xF0F0F0F0)] [] [] = true := by decide
/-- V21. -/
theorem test_srl_v21 :
    retires (probe 0x0020D1B3 0x0 [(1, 0x80000000), (2, 0x1F)] [] [])
      0x00000004 none [(3, 0x1)] [] [] = true := by decide
/-- V23. -/
theorem test_srl_v23 :
    retires (probe 0x0020D1B3 0x0 [(1, 0xDEADBEEF), (2, 0x4)] [] [])
      0x00000004 none [(3, 0xDEADBEE)] [] [] = true := by decide
/-- V25. -/
theorem test_sra_v25 :
    retires (probe 0x4020D1B3 0x0 [(1, 0xDEADBEEF), (2, 0x4)] [] [])
      0x00000004 none [(3, 0xFDEADBEE)] [] [] = true := by decide
/-- V27. -/
theorem test_sra_v27 :
    retires (probe 0x4020D1B3 0x0 [(1, 0x80000000), (2, 0x20)] [] [])
      0x00000004 none [(3, 0x80000000)] [] [] = true := by decide
/-- V28. -/
theorem test_or_v28 :
    retires (probe 0x0020E1B3 0x0 [(1, 0xFF00FF00), (2, 0xFF00FF0)] [] [])
      0x00000004 none [(3, 0xFFF0FFF0)] [] [] = true := by decide
/-- V29. -/
theorem test_and_v29 :
    retires (probe 0x0020F1B3 0x0 [(1, 0xFF00FF00), (2, 0xFF00FF0)] [] [])
      0x00000004 none [(3, 0xF000F00)] [] [] = true := by decide
/-- V33. -/
theorem test_addi_v33 :
    retires (probe 0x7FF08093 0x0 [(1, 0x7FFFFFFF)] [] [])
      0x00000004 none [(1, 0x800007FE)] [] [] = true := by decide
/-- V36. -/
theorem test_addi_v36 :
    retires (probe 0x00508013 0x0 [(1, 0x7)] [] [])
      0x00000004 none [(0, 0x0), (1, 0x7)] [] [] = true := by decide
/-- V37. -/
theorem test_slti_v37 :
    retires (probe 0xFFF0A193 0x0 [(1, 0x80000000)] [] [])
      0x00000004 none [(3, 0x1)] [] [] = true := by decide
/-- V38. -/
theorem test_slti_v38 :
    retires (probe 0xFFF0A193 0x0 [(1, 0x0)] [] []) 0x00000004 none [(3, 0x0)] [] [] = true := by decide
/-- V40. -/
theorem test_sltiu_v40 :
    retires (probe 0xFFF0B193 0x0 [(1, 0x0)] [] []) 0x00000004 none [(3, 0x1)] [] [] = true := by decide
/-- V44. -/
theorem test_sltiu_v44 :
    retires (probe 0x8000B193 0x0 [(1, 0xFFFFF7FF)] [] [])
      0x00000004 none [(3, 0x1)] [] [] = true := by decide
/-- V45. -/
theorem test_xori_v45 :
    retires (probe 0xFFF0C193 0x0 [(1, 0x12345678)] [] [])
      0x00000004 none [(3, 0xEDCBA987)] [] [] = true := by decide
/-- V46. -/
theorem test_ori_v46 :
    retires (probe 0x8000E193 0x0 [(1, 0x1)] [] [])
      0x00000004 none [(3, 0xFFFFF801)] [] [] = true := by decide
/-- V47. -/
theorem test_andi_v47 :
    retires (probe 0xFF00F193 0x0 [(1, 0x12345678)] [] [])
      0x00000004 none [(3, 0x12345670)] [] [] = true := by decide
/-- V50. -/
theorem test_slli_v50 :
    retires (probe 0x01F09193 0x0 [(1, 0xDEADBEEF)] [] [])
      0x00000004 none [(3, 0x80000000)] [] [] = true := by decide
/-- V52. -/
theorem test_srli_v52 :
    retires (probe 0x0100D193 0x0 [(1, 0xDEADBEEF)] [] [])
      0x00000004 none [(3, 0xDEAD)] [] [] = true := by decide
/-- V54. -/
theorem test_srai_v54 :
    retires (probe 0x4100D193 0x0 [(1, 0xDEADBEEF)] [] [])
      0x00000004 none [(3, 0xFFFFDEAD)] [] [] = true := by decide
/-- V57. -/
theorem test_lui_v57 :
    retires (probe 0x800002B7 0x0 [] [] []) 0x00000004 none [(5, 0x80000000)] [] [] = true := by decide
/-- V58. -/
theorem test_lui_v58 :
    retires (probe 0x12345037 0x0 [] [] []) 0x00000004 none [(0, 0x0)] [] [] = true := by decide
/-- V60. -/
theorem test_auipc_v60 :
    retires (probe 0xFFFFF297 0x100 [] [] []) 0x00000104 none [(5, 0xFFFFF100)] [] [] = true := by decide
/-- V61. -/
theorem test_auipc_v61 :
    retires (probe 0x00001297 0x3FFC [] [] []) 0x00004000 none [(5, 0x4FFC)] [] [] = true := by decide
/-- V62. -/
theorem test_lb_v62 :
    retires (probe 0x00008103 0x0 [(1, 0x100)] [] loadBytes)
      0x00000004 none [(2, 0xFFFFFFEF)] [] [] = true := by decide
/-- V80. -/
theorem test_lb_v80 :
    stops (probe 0x00108103 0x0 [(1, 0x3FFF)] [] []) (.outOfBounds 0x00004000) = true := by decide
/-- V64. -/
theorem test_lbu_v64 :
    retires (probe 0x0000C103 0x0 [(1, 0x100)] [] loadBytes)
      0x00000004 none [(2, 0xEF)] [] [] = true := by decide
/-- V67. -/
theorem test_lh_v67 :
    retires (probe 0x00209103 0x0 [(1, 0x100)] [] loadBytes)
      0x00000004 none [(2, 0xFFFFDEAD)] [] [] = true := by decide
/-- V75. -/
theorem test_lh_v75 :
    stops (probe 0x00109103 0x0 [(1, 0x100)] [] loadBytes) (.misalignedAccess 0x00000101) = true := by decide
/-- V70. -/
theorem test_lhu_v70 :
    retires (probe 0x0040D103 0x0 [(1, 0x100)] [] loadBytes)
      0x00000004 none [(2, 0x807F)] [] [] = true := by decide
/-- V84. -/
theorem test_lhu_v84 :
    stops (probe 0x0000D103 0x0 [(1, 0x4001)] [] []) (.misalignedAccess 0x00004001) = true := by decide
/-- V74. -/
theorem test_lw_v74 :
    retires (probe 0x0000A083 0x0 [(1, 0x100)] [] loadBytes)
      0x00000004 none [(1, 0xDEADBEEF)] [] [] = true := by decide
/-- V83. -/
theorem test_lw_v83 :
    retires (probe 0x0010A103 0x0 [(1, 0xFFFFFFFF)] [] loadBytes)
      0x00000004 none [(2, 0x10A103)] [] [] = true := by decide
/-- V85. -/
theorem test_sb_v85 :
    retires (probe 0x00208023 0x0 [(1, 0x200), (2, 0x12345678)] [] [])
      0x00000004 none [] [] [(0x200, 0x78), (0x201, 0x0)] = true := by decide
/-- V94. -/
theorem test_sh_v94 :
    retires (probe 0x00209023 0x0 [(1, 0x3FFE), (2, 0xABCD)] [] [])
      0x00000004 none [] [] [(0x3FFE, 0xCD), (0x3FFF, 0xAB)] = true := by decide
/-- V90. -/
theorem test_sh_v90 :
    stops (probe 0x002090A3 0x0 [(1, 0x200), (2, 0x1234)] [] [])
      (.misalignedAccess 0x00000201) = true := by decide
/-- V88. -/
theorem test_sw_v88 :
    retires (probe 0xFE20AE23 0x0 [(1, 0x204), (2, 0xDEADBEEF)] [] [])
      0x00000004 none [] [] [(0x200, 0xEF), (0x201, 0xBE), (0x202, 0xAD), (0x203, 0xDE)] = true := by decide
/-- V95. -/
theorem test_sw_v95 :
    stops (probe 0x0020A023 0x0 [(1, 0xFFFFFFFC), (2, 0x1)] [] [])
      (.outOfBounds 0xFFFFFFFC) = true := by decide
/-- V97. -/
theorem test_jal_v97 :
    retires (probe 0xFF9FF0EF 0x100 [] [] []) 0x000000F8 none [(1, 0x104)] [] [] = true := by decide
/-- V101. -/
theorem test_jal_v101 :
    stops (probe 0x7FFFF0EF 0x100 [] [] []) (.instructionAddressMisaligned 0x001000FE) = true := by decide
/-- V107. -/
theorem test_jalr_v107 :
    retires (probe 0x004282E7 0x100 [(5, 0x200)] [] []) 0x00000204 none [(5, 0x104)] [] [] = true := by decide
/-- V106. -/
theorem test_jalr_v106 :
    stops (probe 0x002280E7 0x100 [(5, 0x200), (1, 0x77)] [] [])
      (.instructionAddressMisaligned 0x00000202) = true := by decide
/-- V112. -/
theorem test_beq_v112 :
    retires (probe 0xFE0008E3 0x100 [] [] []) 0x000000F0 none [] [] [] = true := by decide
/-- V113. -/
theorem test_beq_v113 :
    stops (probe 0x00000163 0x100 [] [] []) (.instructionAddressMisaligned 0x00000102) = true := by decide
/-- V115. -/
theorem test_bne_v115 :
    retires (probe 0x00209463 0x100 [(1, 0x5), (2, 0x6)] [] []) 0x00000108 none [] [] [] = true := by decide
/-- V116. -/
theorem test_bne_v116 :
    retires (probe 0x00209463 0x100 [(1, 0x5), (2, 0x5)] [] []) 0x00000104 none [] [] [] = true := by decide
/-- V117. -/
theorem test_blt_v117 :
    retires (probe 0x0020C463 0x100 [(1, 0x80000000), (2, 0x0)] [] [])
      0x00000108 none [] [] [] = true := by decide
/-- V118. -/
theorem test_blt_v118 :
    retires (probe 0x0020C463 0x100 [(1, 0x0), (2, 0x80000000)] [] [])
      0x00000104 none [] [] [] = true := by decide
/-- V120. -/
theorem test_bltu_v120 :
    retires (probe 0x0020E463 0x100 [(1, 0x80000000), (2, 0x0)] [] [])
      0x00000104 none [] [] [] = true := by decide
/-- V121. -/
theorem test_bltu_v121 :
    retires (probe 0x0020E463 0x100 [(1, 0x0), (2, 0x80000000)] [] [])
      0x00000108 none [] [] [] = true := by decide
/-- V122. -/
theorem test_bge_v122 :
    retires (probe 0x0020D463 0x100 [(1, 0x5), (2, 0x5)] [] []) 0x00000108 none [] [] [] = true := by decide
/-- V123. -/
theorem test_bge_v123 :
    retires (probe 0x0020D463 0x100 [(1, 0x80000000), (2, 0x0)] [] [])
      0x00000104 none [] [] [] = true := by decide
/-- V125. -/
theorem test_bgeu_v125 :
    retires (probe 0x0020F463 0x100 [(1, 0x0), (2, 0xFFFFFFFF)] [] [])
      0x00000104 none [] [] [] = true := by decide
/-- V126. -/
theorem test_bgeu_v126 :
    retires (probe 0x0020F463 0x100 [(1, 0xFFFFFFFF), (2, 0x0)] [] [])
      0x00000108 none [] [] [] = true := by decide
/-- V133. -/
theorem test_csrrw_v133 :
    retires (probe 0x340090F3 0x0 [(1, 0xAAAA5555)] [(0x340, 0x11112222)] [])
      0x00000004 none [(1, 0x11112222)] [(0x340, 0xAAAA5555)] [] = true := by decide
/-- V132. -/
theorem test_csrrw_v132 :
    retires (probe 0x34009073 0x0 [(1, 0xAAAA5555)] [(0x340, 0x11112222)] [])
      0x00000004 none [(0, 0x0)] [(0x340, 0xAAAA5555)] [] = true := by decide
/-- V134. -/
theorem test_csrrs_v134 :
    retires (probe 0x3400A173 0x0 [(1, 0xFF00)] [(0x340, 0x11112222)] [])
      0x00000004 none [(2, 0x11112222)] [(0x340, 0x1111FF22)] [] = true := by decide
/-- V137. -/
theorem test_csrrc_v137 :
    retires (probe 0x3400B173 0x0 [(1, 0xFF00)] [(0x340, 0x1111FFFF)] [])
      0x00000004 none [(2, 0x1111FFFF)] [(0x340, 0x111100FF)] [] = true := by decide
/-- V140. -/
theorem test_csrrwi_v140 :
    retires (probe 0xFFF05173 0x0 [] [(0xFFF, 0x11112222)] [])
      0x00000004 none [(2, 0x11112222)] [(0xFFF, 0x0)] [] = true := by decide
/-- V141. -/
theorem test_csrrsi_v141 :
    retires (probe 0x00086173 0x0 [] [(0x0, 0x1)] [])
      0x00000004 none [(2, 0x1)] [(0x0, 0x11)] [] = true := by decide
/-- V142. -/
theorem test_csrrci_v142 :
    retires (probe 0x340FF173 0x0 [] [(0x340, 0xFFFFFFFF)] [])
      0x00000004 none [(2, 0xFFFFFFFF)] [(0x340, 0xFFFFFFE0)] [] = true := by decide
/-- V148. -/
theorem test_fence_v148 :
    retires (probe 0xFFFF8F8F 0x100 [(31, 0x7)] [] []) 0x00000104 none [(31, 0x7)] [] [] = true := by decide
/-- V150. -/
theorem test_fence_i_v150 :
    retires (probe 0xFFFF9F8F 0x100 [(31, 0x7)] [] []) 0x00000104 none [(31, 0x7)] [] [] = true := by decide
/-- V151. -/
theorem test_ecall_v151 :
    retires (probe 0x00000073 0x100 [(10, 0x0)] [] [])
      0x00000104 (some .envCall) [(10, 0x0)] [] [] = true := by decide
/-- V152. -/
theorem test_ebreak_v152 :
    retires (probe 0x00100073 0x100 [] [] []) 0x00000104 (some .envBreak) [] [] [] = true := by decide

/-- V155: an illegal word stops the step, with the word in the record. -/
theorem test_illegal_word_v155 : stops (probe 0x00000573 0x100 [] [] []) .illegalInstruction = true := by decide

/-- V100, and R250 (1): the pc may wrap; the fetch then fails with the pc and no word. -/
theorem test_fetch_out_of_bounds :
    step { State.reset with pc := 0xFFFFFFFC } =
      .next { State.reset with
        pc := 0xFFFFFFFC
        status := .fatal ⟨.outOfBounds 0xFFFFFFFC, 0xFFFFFFFC, none⟩ } := rfl

/-- The word placed is the one the next step runs, also in the reset state itself. -/
theorem test_with_fetch_word : (State.reset.withFetchWord 32 0x00100093).fetchDecode = .ok (.addi 1 0 1) ∧
    step (State.reset.withFetchWord 32 0x00100093) =
      exec (.addi 1 0 1) (State.reset.withFetchWord 32 0x00100093) := ⟨by decide, rfl⟩

/-- The smallest memory R5 allows, holding one ECALL word; `x[10]` is the argument. -/
def ecallLaunch (x10 : Word) : Outcome :=
  launch { memSize := 4, regInit := fun r => if r = 10 then x10 else 0, memInit := fun _ => 0 } [0x73, 0, 0, 0]

/-- S9: the run ends with the ECALL step, pass for 0 and fail for 1, at pc 4. -/
theorem test_s9_ecall_ends_the_run :
    (match ecallLaunch 0 with
      | .next s => (match runProtocol 5 s with | .pass t => decide (t.pc = 4) | _ => false)
      | _ => false) = true ∧
    (match ecallLaunch 1 with
      | .next s => (match runProtocol 5 s with | .fail t => decide (t.pc = 4) | _ => false)
      | _ => false) = true := by decide

/-! ### Witnesses: what the hypotheses of each statement of Obligations.lean are met by -/

/-- DecodeOfEncodedBytes: the two extreme offsets, and every operand field full. -/
theorem witness_decode_of_encoded_bytes : (Instr.jal 31 (-1048576)).wf = true ∧ (Instr.beq 31 31 4094).wf = true ∧
    (Instr.csrrci 31 0xFFF 31).wf = true := by decide

/-- EncodeOfDecodedWord. -/
theorem witness_encode_of_decoded_word : decodeWord 0x80000063 = .ok (.beq 0 0 (-4096)) ∧
    Instr.beq 0 0 (-4096) ≠ .fence ∧ Instr.beq 0 0 (-4096) ≠ .fenceI := by decide

/-- DecodeAgreesWithTheMatchAndMaskTable: a word in a row, and a word that decodes. -/
theorem witness_decode_agrees : (0xFFFF8F8F : Word) &&& (tableRow .fence).mask = (tableRow .fence).bits ∧
    decodeWord 0xFFFF8F8F = .ok .fence := by decide

/-- WordOutsideTheTableIsIllegal: a word that decodes to the error, and a word in no row. -/
theorem witness_word_outside_the_table : decodeWord 0x10500073 = .error (.illegalInstruction 0x10500073) ∧
    ∀ i, (0x10500073 : Word) &&& (tableRow i).mask ≠ (tableRow i).bits := by
  refine ⟨by decide, fun i => ?_⟩
  cases i <;> simp only [tableRow] <;> decide

/-- FenceFieldsAreIgnored, both clauses: V148 and V150. -/
theorem witness_fence_fields : (0xFFFF8F8F : Word) &&& 0x0000707F = 0x0000000F ∧
    (0xFFFF9F8F : Word) &&& 0x0000707F = 0x0000100F := by decide

/-- EnvironmentWordsAreExact, the clauses with hypotheses: V155 and V162. -/
theorem witness_environment_words : ((0x00000573 : Word) &&& 0x0000707F = 0x00000073 ∧
    (0x00000573 : Word) ≠ 0x00000073 ∧ (0x00000573 : Word) ≠ 0x00100073) ∧
    (0x00004073 : Word) &&& 0x0000707F = 0x00004073 := by decide

/-- ImmediateShiftsUseShamt, the clauses about illegal words: V168, V171. -/
theorem witness_illegal_shifts :
    ((0x02011093 : Word) &&& 0x0000707F = 0x00001013 ∧ (0x02011093 : Word) &&& 0xFE000000 ≠ 0) ∧
    (0x20015093 : Word) &&& 0x0000707F = 0x00005013 ∧ (0x20015093 : Word) &&& 0xFE000000 ≠ 0 ∧
    (0x20015093 : Word) &&& 0xFE000000 ≠ 0x40000000 := by decide

/-- RegisterFileReadsAndWrites. -/
theorem witness_register_file : (31 : RegNum) ≠ 0 ∧ (1 : RegNum) ≠ 31 := by decide

/-- CsrBankIsPlainStorage, CsrRegisterFormsReadAndModify and CsrImmediateFormsReadAndModify: the last index
written, another one distinct from it. -/
theorem witness_csr_bank : (State.reset.writeCsr 0xFFF 0x11112222).csrWf = true ∧ (0xFFE : CsrNum) ≠ 0xFFF := by
  decide

/-- Memory of four cells at the end of 16 KiB: the word 0x8081_0203. -/
def endMemory : Memory := ⟨16384, [(0x3FFC, 0x03), (0x3FFD, 0x02), (0x3FFE, 0x81), (0x3FFF, 0x80)]⟩

/-- StoreThenLoadReturnsTheTruncatedValue and NarrowReadsSeeTheBytesOfAStoredWord, at the last byte, halfword and
word. -/
theorem witness_memory_round_trip : endMemory.wf = true ∧
    ((0x3FFF : Word).toNat % Width.byte.bytes = 0 ∧ (0x3FFF : Word).toNat + Width.byte.bytes ≤ endMemory.size) ∧
    ((0x3FFE : Word).toNat % Width.half.bytes = 0 ∧ (0x3FFE : Word).toNat + Width.half.bytes ≤ endMemory.size) ∧
    ((0x3FFC : Word).toNat % Width.word.bytes = 0 ∧ (0x3FFC : Word).toNat + Width.word.bytes ≤ endMemory.size) ∧
    ∃ m, memWrite .word 0x3FFC 0x12345678 endMemory = .ok m :=
  ⟨by decide, by decide, by decide, by decide, _, rfl⟩

/-- AccessesTestAlignmentThenBounds: misaligned (here out of bounds as well), and the first address past the end. -/
theorem witness_access_tests : (0x4001 : Word).toNat % Width.half.bytes ≠ 0 ∧
    (0x4000 : Word).toNat % Width.word.bytes = 0 ∧ endMemory.size < (0x4000 : Word).toNat + Width.word.bytes ∧
    (0xFFFFFFFF : Word).toNat % Width.byte.bytes = 0 ∧
    endMemory.size < (0xFFFFFFFF : Word).toNat + Width.byte.bytes := by decide

/-- FetchReadsTheLittleEndianWord: the last fetch in bounds and the first out of bounds. -/
theorem witness_fetch : (0x3FFC : Word).toNat + 4 ≤ endMemory.size ∧ endMemory.size < (0x3FFD : Word).toNat + 4 := by
  decide

/-- After reset but for `x[1]` and the memory. -/
def atEnd (base : Word) : State := (State.reset.writeReg 1 base).withMem endMemory

/-- ByteLoadsExtendTheByte, HalfwordLoadsExtendTheHalfword, WordLoadReadsTheWord, ByteStoreWritesTheLowByte and
HalfwordAndWordStoresWriteTheLowBytes, the clauses that complete: the last address in bounds for each size. -/
theorem witness_accesses_in_bounds : (atEnd 0x4000).mem.wf = true ∧
    ((atEnd 0x4000).effectiveAddress 1 (-1)).toNat < (atEnd 0x4000).mem.size ∧
    ((atEnd 0x4000).effectiveAddress 1 (-2)).toNat % 2 = 0 ∧
    ((atEnd 0x4000).effectiveAddress 1 (-2)).toNat + 2 ≤ (atEnd 0x4000).mem.size ∧
    ((atEnd 0x4000).effectiveAddress 1 (-4)).toNat % 4 = 0 ∧
    ((atEnd 0x4000).effectiveAddress 1 (-4)).toNat + 4 ≤ (atEnd 0x4000).mem.size := by decide

/-- The same statements, the clauses that stop: the first address past the end, and a misaligned one beside it. -/
theorem witness_accesses_that_stop :
    (atEnd 0x4000).mem.size ≤ ((atEnd 0x4000).effectiveAddress 1 0).toNat ∧
    ((atEnd 0x4000).effectiveAddress 1 (-1)).toNat % Width.half.bytes ≠ 0 ∧
    (((atEnd 0x4000).effectiveAddress 1 0).toNat % Width.half.bytes = 0 ∧
      (atEnd 0x4000).mem.size < ((atEnd 0x4000).effectiveAddress 1 0).toNat + Width.half.bytes) ∧
    ((atEnd 0x4000).effectiveAddress 1 (-2)).toNat % Width.word.bytes ≠ 0 ∧
    (((atEnd 0x4000).effectiveAddress 1 0).toNat % Width.word.bytes = 0 ∧
      (atEnd 0x4000).mem.size < ((atEnd 0x4000).effectiveAddress 1 0).toNat + Width.word.bytes) := by decide

/-- StoredWordIsFetched. -/
theorem witness_stored_word : (atEnd 0x4000).mem.wf = true ∧ (atEnd 0x4000).status = .running ∧
    ∃ t, exec (.sw 1 1 (-4)) (atEnd 0x4000) = .next t ∧ t.status = .running :=
  ⟨by decide, by decide, _, rfl, rfl⟩

/-- JalLinksAndJumps: the most negative offset; +2, the nearest misaligned target. -/
theorem witness_jal : (BitVec.ofInt 32 (State.reset.pc.toNat + (-1048576 : BitVec 21).toInt)).toNat % 4 = 0 ∧
    (BitVec.ofInt 32 (State.reset.pc.toNat + (2 : BitVec 21).toInt)).toNat % 4 ≠ 0 := by decide

/-- JalrLinksAndJumps: a sum with bit 0 set, and one with bit 1 set. -/
theorem witness_jalr :
    (BitVec.ofNat 32 ((BitVec.ofInt 32 (((atEnd 0x200).readReg 1).toNat + (1 : BitVec 12).toInt)).toNat / 2 * 2)).toNat
      % 4 = 0 ∧
    (BitVec.ofNat 32 ((BitVec.ofInt 32 (((atEnd 0x200).readReg 1).toNat + (3 : BitVec 12).toInt)).toNat / 2 * 2)).toNat
      % 4 ≠ 0 := by decide

/-- BranchesFollowTheirComparison: each comparison true and false at 0x80000000 against 0, a signed and unsigned
boundary, and an aligned and a misaligned target. -/
theorem witness_branches :
    let s := atEnd 0x80000000
    (s.readReg 1 = s.readReg 1 ∧ ¬ s.readReg 1 = s.readReg 0) ∧
    (s.readReg 1 ≠ s.readReg 0 ∧ ¬ s.readReg 1 ≠ s.readReg 1) ∧
    ((s.readReg 1).toInt < (s.readReg 0).toInt ∧ ¬ (s.readReg 0).toInt < (s.readReg 1).toInt) ∧
    ((s.readReg 0).toNat < (s.readReg 1).toNat ∧ ¬ (s.readReg 1).toNat < (s.readReg 0).toNat) ∧
    ((s.readReg 1).toInt ≤ (s.readReg 0).toInt ∧ ¬ (s.readReg 0).toInt ≤ (s.readReg 1).toInt) ∧
    ((s.readReg 0).toNat ≤ (s.readReg 1).toNat ∧ ¬ (s.readReg 1).toNat ≤ (s.readReg 0).toNat) ∧
    (BitVec.ofInt 32 (s.pc.toNat + (-4096 : BitVec 13).toInt)).toNat % 4 = 0 ∧
    (BitVec.ofInt 32 (s.pc.toNat + (4094 : BitVec 13).toInt)).toNat % 4 ≠ 0 := by decide

/-- EnvironmentInstructionsSignalAndRetire and EveryStepHasOneOfTheFourResults. -/
theorem witness_running : State.reset.status = .running := rfl

/-- The pc of the last word of memory, the word at it ADDI x1, x0, 1. -/
def lastWord : State := probe 0x00100093 0x3FFC [] [] []

/-- StepRunsTheDecodedInstruction, OnlyTransfersLeaveTheSequence, OnlyTheDestinationRegisterChanges,
OnlyCsrInstructionsChangeCsrs, OnlyStoresChangeMemory, ObserverSeesRetiredInstructions, OtherWordsContinueTheRun. -/
theorem witness_step_of_addi : lastWord.status = .running ∧ lastWord.pc.toNat + 4 ≤ lastWord.mem.size ∧
    lastWord.mem.read lastWord.pc.toNat .word = 0x00100093#32 ∧ decodeWord 0x00100093 = .ok (.addi 1 0 1) ∧
    lastWord.fetchDecode = .ok (.addi 1 0 1) ∧ lastWord.fetchedWord = some 0x00100093 ∧
    lastWord.fetchedWord ≠ some 0x00000073 ∧
    (Instr.addi 1 0 1).group ≠ .jump ∧ (Instr.addi 1 0 1).group ≠ .branch ∧ (Instr.addi 1 0 1).group ≠ .csr ∧
    (Instr.addi 1 0 1).group ≠ .store ∧ (Instr.addi 1 0 1).destination ≠ some 2 ∧
    ∃ t, step lastWord = .next t ∧ t.status = .running ∧ t.pc = 0x4000 :=
  ⟨by decide, by decide, rfl, by decide, by decide, by decide, by decide, by decide, by decide, by decide,
    by decide, by decide, _, rfl, rfl, rfl⟩

/-- StepStopsOnBadFetchOrIllegalWord: the first pc past the end, and reset, whose first word is 0. -/
theorem witness_step_stops :
    ({ lastWord with pc := 0x4000 } : State).mem.size < ({ lastWord with pc := 0x4000 } : State).pc.toNat + 4 ∧
    State.reset.pc.toNat + 4 ≤ State.reset.mem.size ∧
    ∀ i, decodeWord (State.reset.mem.read State.reset.pc.toNat .word) ≠ .ok i := by
  refine ⟨by decide, by decide, fun i h => ?_⟩
  have e : decodeWord (State.reset.mem.read State.reset.pc.toNat .word) = .error (.illegalInstruction 0) := by decide
  rw [e] at h
  cases h

/-- A machine stopped by a misaligned load (V76). -/
def stopped : State := (probe 0x0020A103 0 [(1, 0x100)] [] []).halt (.misalignedAccess 0x102)

/-- NoStepInFatal. -/
theorem witness_fatal :
    stopped.status = .fatal ⟨.misalignedAccess 0x102, 0, some 0x0020A103⟩ := by decide

/-- FatalStepsArePrecise, OtherWordsContinueTheRun and ObserverSeesRetiredInstructions, where the step ends in
Fatal. -/
theorem witness_step_to_fatal : (probe 0x0020A103 0 [(1, 0x100)] [] []).status = .running ∧
    (probe 0x0020A103 0 [(1, 0x100)] [] []).fetchedWord = some 0x0020A103 ∧
    decodeWord 0x0020A103 = .ok (.lw 2 1 2) ∧
    step (probe 0x0020A103 0 [(1, 0x100)] [] []) = .next stopped :=
  ⟨by decide, by decide, by decide, rfl⟩

/-- ConditionsComeOnlyFromTheirInstructions: an instruction for each condition one can raise (V76, V78, V80, V99), the
accesses at the first address out of bounds. -/
theorem witness_conditions :
    (probe 0x0020A103 0 [(1, 0x100)] [] []).fetchDecode = .ok (.lw 2 1 2) ∧
    step (probe 0x0020A103 0 [(1, 0x100)] [] []) = .next stopped ∧
    (probe 0x0000A103 0 [(1, 0x4000)] [] []).fetchDecode = .ok (.lw 2 1 0) ∧
    step (probe 0x0000A103 0 [(1, 0x4000)] [] []) =
      .next ((probe 0x0000A103 0 [(1, 0x4000)] [] []).halt (.outOfBounds 0x4000)) ∧
    (probe 0x00108103 0 [(1, 0x3FFF)] [] []).fetchDecode = .ok (.lb 2 1 1) ∧
    step (probe 0x00108103 0 [(1, 0x3FFF)] [] []) =
      .next ((probe 0x00108103 0 [(1, 0x3FFF)] [] []).halt (.outOfBounds 0x4000)) ∧
    (probe 0x002000EF 0x100 [] [] []).fetchDecode = .ok (.jal 1 2) ∧
    step (probe 0x002000EF 0x100 [] [] []) =
      .next ((probe 0x002000EF 0x100 [] [] []).halt (.instructionAddressMisaligned 0x102)) :=
  ⟨by decide, rfl, by decide, rfl, by decide, rfl, by decide, rfl⟩

/-- CsrContentsDoNotAffectOtherInstructions: two states with different banks. -/
theorem witness_agree_but_csr : AgreeButCsr lastWord (lastWord.writeCsr 0x340 1) ∧
    lastWord.csr ≠ (lastWord.writeCsr 0x340 1).csr ∧
    (∀ i, lastWord.fetchDecode = .ok i → i.group ≠ .csr) ∧ ∃ t, step lastWord = .next t := by
  refine ⟨⟨rfl, rfl, rfl, rfl, rfl⟩, by decide, fun i h => ?_, _, rfl⟩
  have e : lastWord.fetchDecode = .ok (.addi 1 0 1) := by decide
  rw [e] at h
  cases h
  decide

/-- NoStepReadsTheSignal: a step that retires, and one that stops. -/
theorem witness_signal : (∃ t, step lastWord = .next t ∧ t.status = .running) ∧
    step State.reset = .next (State.reset.halt .illegalInstruction) ∧
    (State.reset.halt .illegalInstruction).status ≠ .running :=
  ⟨⟨_, rfl, rfl⟩, rfl, by decide⟩

/-- The reset state meets the invariant. -/
theorem reset_inv : State.reset.Inv :=
  ⟨by decide, by decide, by decide, by decide, fun record h => by cases h⟩

/-- EveryStepKeepsTheInvariant: a state with a listed byte and a listed CSR that meets it and steps. -/
theorem witness_invariant : (lastWord.writeCsr 0x340 1).Inv ∧ ∃ t, step (lastWord.writeCsr 0x340 1) = .next t :=
  ⟨⟨by decide, by decide, by decide, by decide, fun record h => by cases h⟩, _, rfl⟩

/-- LaunchLoadsTheImage and LongImageIsRefused, at the least and the greatest MEM_SIZE of R5, the image just
fitting and one byte too long; an offset in the image, one after it, a register. -/
theorem witness_launch : Config.LegalMemSize 4 ∧ Config.LegalMemSize (2 ^ 32) ∧ Config.LegalMemSize 16384 ∧
    [0x73, 0x00, 0x00, (0x00 : Byte)].length ≤ 4 ∧ 4 < [0x73, 0x00, 0x00, 0x00, (0x13 : Byte)].length ∧
    (31 : RegNum) ≠ 0 ∧ (3 < [0x73, 0x00, 0x00, (0x00 : Byte)].length) ∧
    [0x73, 0x00, 0x00, (0x00 : Byte)].length ≤ 4 ∧ 4 < 16384 := by decide

/-- EcallWordEndsTheRun, with `x[10]` zero and not. -/
theorem witness_ecall_word : (probe 0x00000073 0 [] [] []).status = .running ∧
    (probe 0x00000073 0 [] [] []).fetchedWord = some 0x00000073 ∧ (probe 0x00000073 0 [] [] []).readReg 10 = 0 ∧
    (probe 0x00000073 0 [(10, 1)] [] []).fetchedWord = some 0x00000073 ∧
    (probe 0x00000073 0 [(10, 1)] [] []).readReg 10 ≠ 0 := by decide

end Sys2Proof.Tests
end

/-! ## The state: registers, CSR bank and pc (spec/10_state.md)

The rules of a register write, of a CSR write and of the pc after an instruction that retires, and the three
statements about the state that follow from them. -/

namespace Sys2Proof.Machine

/-! ### What a register write and a CSR write do -/

/-- A write to `x[0]` is discarded (R22). -/
@[simp] theorem State.writeReg_zero (s : State) (v : Word) : s.writeReg 0#5 v = s := by simp [State.writeReg]

theorem State.readReg_writeReg_same (s : State) {r : RegNum} (hr : r ≠ 0) (v : Word) :
    (s.writeReg r v).readReg r = v := by
  rw [State.readReg_writeReg, if_pos ⟨rfl, hr⟩]

theorem State.readReg_writeReg_of_ne (s : State) {r q : RegNum} (hq : q ≠ r) (v : Word) :
    (s.writeReg r v).readReg q = s.readReg q := by
  rw [State.readReg_writeReg, if_neg fun h => hq h.1]

theorem sameCsrs_writeReg (s : State) (r : RegNum) (v : Word) : SameCsrs s (s.writeReg r v) :=
  s.readCsr_writeReg r v

theorem sameMem_of_mem_eq {s t : State} (h : t.mem = s.mem) : SameMem s t :=
  ⟨congrArg Memory.size h, fun a => congrArg (Memory.byte · a) h⟩

theorem State.readCsr_writeCsr_same {s : State} (h : s.csrWf = true) (a : CsrNum) (v : Word) :
    (s.writeCsr a v).readCsr a = v := by
  rw [State.readCsr_writeCsr h, if_pos rfl]

theorem State.readCsr_writeCsr_of_ne {s : State} (h : s.csrWf = true) {a b : CsrNum} (hb : b ≠ a) (v : Word) :
    (s.writeCsr a v).readCsr b = s.readCsr b := by
  rw [State.readCsr_writeCsr h, if_neg hb]

/-- The empty bank of the reset state reads 0 at every index (R31). -/
@[simp] theorem State.readCsr_reset (a : CsrNum) : State.reset.readCsr a = 0#32 := rfl

/-! ### The step of a decoded instruction, and the pc it leaves -/

theorem step_eq_exec {s : State} {i : Instr} (hs : s.status = .running) (hi : s.fetchDecode = .ok i) :
    step s = exec i s := by
  simp only [step, hs, hi]

/-- A step ends as its decoded instruction ends. -/
theorem ends_of_step {s t : State} {i : Instr} (hs : s.status = .running) (hi : s.fetchDecode = .ok i)
    (h : step s = .next t) : Ends i s t := by
  obtain ⟨u, hu, hends⟩ := exec_ends i s
  have hut : u = t := Host.Outcome.next.inj (hu.symm.trans ((step_eq_exec hs hi).symm.trans h))
  exact hut ▸ hends

/-- A stopped machine does not run. -/
theorem State.halt_status_ne_running (s : State) (c : Condition) : (s.halt c).status ≠ .running := by simp

/-- Only a jump or a taken branch retires anywhere but at the next instruction (R26). -/
theorem Ends.pc_eq_nextPc {i : Instr} {s t : State} (h : Ends i s t) (hrun : t.status = .running)
    (hj : i.group ≠ .jump) (hb : i.group ≠ .branch) : t.pc = s.nextPc := by
  cases h with
  | accessStops | transferStops => exact absurd hrun (s.halt_status_ne_running _)
  | jumps _ _ _ _ hg => exact absurd hg hj
  | branches _ _ hg => exact absurd hg hb
  | writesBack | fallsThrough | stores | modifiesCsr | signals => rfl

/-! ### The obligations -/

/-- Settles O44: the step ends in one of the ways of `Ends`, and the only ones that stay Running and leave another
pc are those of a jump and of a taken branch. -/
theorem onlyTransfersLeaveTheSequence : Obligations.OnlyTransfersLeaveTheSequence := by
  intro s t i hs hi hstep hrun hj hb
  exact (ends_of_step hs hi hstep).pc_eq_nextPc hrun hj hb

/-- Settles O10, by the read-after-write rules of the register file and the frame of `writeReg`. -/
theorem registerFileReadsAndWrites : Obligations.RegisterFileReadsAndWrites := by
  intro s v
  refine ⟨s.readReg_zero, s.writeReg_zero v, fun r hr => ?_⟩
  exact ⟨s.readReg_writeReg_same hr v, fun q hq => s.readReg_writeReg_of_ne hq v, s.writeReg_pc r v,
    sameCsrs_writeReg s r v, sameMem_of_mem_eq (s.writeReg_mem r v), s.writeReg_status r v, s.writeReg_signal r v⟩

/-- Settles O11, by the read-after-write rules of a canonical bank and the frame of `writeCsr`. -/
theorem csrBankIsPlainStorage : Obligations.CsrBankIsPlainStorage := by
  refine ⟨State.readCsr_reset, fun s a v hwf => ?_⟩
  exact ⟨State.readCsr_writeCsr_same hwf a v, State.csrWf_writeCsr hwf a v,
    fun b hb => State.readCsr_writeCsr_of_ne hwf hb v, s.readReg_writeCsr a v,
    sameMem_of_mem_eq (s.writeCsr_mem a v), s.writeCsr_pc a v, s.writeCsr_status a v, s.writeCsr_signal a v⟩

end Sys2Proof.Machine

/-! ## The memory (spec/20_memory.md)

What a fetch answers, from the rules of `fetch` and of the little-endian word. -/

namespace Sys2Proof.Machine

/-- Settles O15: a fetch ends in one of two ways (R58), and the word it reads has a little-endian value (R52). -/
theorem fetchReadsTheLittleEndianWord : Obligations.FetchReadsTheLittleEndianWord := by
  intro m a
  rcases fetch_cases a m with ⟨hout, herr⟩ | ⟨hin, hok⟩
  · exact ⟨fun _ => herr, fun hin => absurd hin hout.not_ge⟩
  · exact ⟨fun hout => absurd hin hout.not_ge, fun _ => ⟨_, hok, m.toNat_read_word a.toNat⟩⟩

end Sys2Proof.Machine

/-! ## The immediates of a word (spec/30_encoding.md R84, R87)

The sign extension of a 12-bit field and the U immediate, bit by bit against the constant `0xFFFFF000`. -/

namespace Sys2Proof.Machine

/-- `0xFFFFF000` is the mask of bits 31 to 12. -/
theorem getLsbD_upperTwentyBits {i : Nat} (hi : i < 32) : (0xFFFFF000 : Word).getLsbD i = decide (12 ≤ i) := by
  revert i
  decide

/-- R84, for a field whose sign bit is 0. -/
theorem imm12_of_bit11_clear {imm : BitVec 12} (h : imm.getLsbD 11 = false) : imm12 imm = imm.zeroExtend 32 :=
  BitVec.signExtend_eq_setWidth_of_msb_false (by rw [BitVec.msb_eq_getLsbD_last, h])

/-- R84, for a field whose sign bit is 1. -/
theorem imm12_of_bit11_set {imm : BitVec 12} (h : imm.getLsbD 11 = true) :
    imm12 imm = imm.zeroExtend 32 ||| 0xFFFFF000 := by
  refine BitVec.eq_of_getLsbD_eq fun i hi => ?_
  rw [getLsbD_imm12 imm hi, BitVec.getLsbD_or, getLsbD_upperTwentyBits hi, BitVec.getLsbD_setWidth]
  by_cases hlow : i < 12
  · simp [Nat.min_eq_left (Nat.le_of_lt_succ hlow), hi, hlow]
  · simp [Nat.min_eq_right (show 11 ≤ i by omega), h, Nat.le_of_not_lt hlow]

theorem getLsbD_immU (imm20 : BitVec 20) (i : Nat) :
    (immU imm20).getLsbD i = if i < 12 then false else imm20.getLsbD (i - 12) := by
  change (imm20 ++ 0#12 : BitVec (20 + 12)).getLsbD i = _
  rw [BitVec.getLsbD_append, BitVec.getLsbD_zero]

/-- R87: bits 31 to 12 of the word, in their place. -/
theorem immU_immUField (w : Word) : immU (immUField w) = w &&& 0xFFFFF000 := by
  refine BitVec.eq_of_getLsbD_eq fun i hi => ?_
  rw [getLsbD_immU, BitVec.getLsbD_and, getLsbD_upperTwentyBits hi]
  split_ifs with hlow
  · simp [hlow]
  · simp [immUField, BitVec.extractLsb, Nat.le_of_not_lt hlow, show i - 12 < 20 by omega]

/-- Settles O8: the two cases of the sign extension, the range of a 12-bit number, and the U immediate as the masked
word. -/
theorem iAndUImmediatesOfAWord : Obligations.IAndUImmediatesOfAWord := by
  intro w
  refine ⟨rfl, ?_, ?_, ?_, immU_immUField w⟩
  · split_ifs with h
    · exact imm12_of_bit11_set h
    · exact imm12_of_bit11_clear (Bool.eq_false_iff.mpr h)
  · exact (toInt_imm12 _).symm ▸ BitVec.le_toInt _
  · exact (toInt_imm12 _).symm ▸ Int.le_of_lt_add_one BitVec.toInt_lt

end Sys2Proof.Machine

/-! ## The decoder and the table of match and mask values (spec/30_encoding.md R93 to R103)

Each level of the dispatch answers IllegalInstruction or an instruction whose row accepts the word; and a word that a
row accepts is decoded. Together: the illegal words are those outside the table. -/

namespace Sys2Proof

/-- The row of `i` in the table of R95 to R102 accepts the word. -/
def RowAccepts (i : Instr) (w : Word) : Prop := w &&& (tableRow i).mask = (tableRow i).bits

/-! ### From the fields to the row -/

theorem rowAccepts_of_opcode {i : Instr} {w : Word} {op : BitVec 7} (hop : opcode w = op)
    (hrow : tableRow i = ⟨encodeU 0 0 op, maskOp⟩) : RowAccepts i w := by
  rw [RowAccepts, hrow]
  exact (and_maskOp w op).mpr hop

theorem rowAccepts_of_funct3 {i : Instr} {w : Word} {op : BitVec 7} {f3 : BitVec 3} (hop : opcode w = op)
    (hf3 : funct3 w = f3) (hrow : tableRow i = ⟨encodeI 0 0 f3 0 op, maskOpF3⟩) : RowAccepts i w := by
  rw [RowAccepts, hrow]
  exact (and_maskOpF3 w f3 op).mpr ⟨hf3, hop⟩

theorem rowAccepts_of_funct7 {i : Instr} {w : Word} {op : BitVec 7} {f3 : BitVec 3} {f7 : BitVec 7}
    (hop : opcode w = op) (hf3 : funct3 w = f3) (hf7 : funct7 w = f7)
    (hrow : tableRow i = ⟨encodeR f7 0 0 f3 0 op, maskOpF3F7⟩) : RowAccepts i w := by
  rw [RowAccepts, hrow]
  exact (and_maskOpF3F7 w f7 f3 op).mpr ⟨hf7, hf3, hop⟩

/-! ### What the decoder may answer -/

/-- An answer R93 allows for the word: IllegalInstruction with the word, or an instruction whose row accepts it. -/
inductive AnswersByTable (w : Word) : Except DecodeReject Instr → Prop where
  | illegal : AnswersByTable w (illegal w)
  | row {i : Instr} (h : RowAccepts i w) : AnswersByTable w (.ok i)

/-- A test of the dispatch. The tests after it need not know that it failed. -/
theorem AnswersByTable.ite {w : Word} {c : Prop} [Decidable c] {a b : Except DecodeReject Instr}
    (hthen : c → AnswersByTable w a) (helse : AnswersByTable w b) : AnswersByTable w (if c then a else b) := by
  split
  · exact hthen ‹_›
  · exact helse

/-- A test of funct3 that selects the instruction. -/
theorem AnswersByTable.onFunct3 {w : Word} {op : BitVec 7} {f3 : BitVec 3} {i : Instr}
    {r : Except DecodeReject Instr} (hop : opcode w = op) (hrow : tableRow i = ⟨encodeI 0 0 f3 0 op, maskOpF3⟩)
    (helse : AnswersByTable w r) : AnswersByTable w (if funct3 w = f3 then .ok i else r) :=
  .ite (fun hf3 => .row (rowAccepts_of_funct3 hop hf3 hrow)) helse

/-! ### The second level of the dispatch -/

/-- Each of the two values of funct7 has its own tests of funct3. -/
theorem answersByTable_decodeOp {w : Word} (hop : opcode w = 0x33) : AnswersByTable w (decodeOp w) := by
  unfold decodeOp
  refine .ite (fun hf7 => ?_) (.ite (fun hf7 => ?_) .illegal)
  all_goals
    repeat refine .ite (fun hf3 => .row (rowAccepts_of_funct7 hop hf3 hf7 rfl)) ?_
    exact .illegal

theorem answersByTable_decodeOpImm {w : Word} (hop : opcode w = 0x13) : AnswersByTable w (decodeOpImm w) := by
  unfold decodeOpImm
  refine .onFunct3 hop rfl <| .ite (fun hf3 => ?shiftLeft) <| .onFunct3 hop rfl <| .onFunct3 hop rfl <|
    .onFunct3 hop rfl <| .ite (fun hf3 => ?shiftRight) <| .onFunct3 hop rfl <| .onFunct3 hop rfl .illegal
  case shiftLeft =>
    exact .ite (fun hf7 => .row (rowAccepts_of_funct7 hop hf3 hf7 rfl)) .illegal
  case shiftRight =>
    exact .ite (fun hf7 => .row (rowAccepts_of_funct7 hop hf3 hf7 rfl))
      (.ite (fun hf7 => .row (rowAccepts_of_funct7 hop hf3 hf7 rfl)) .illegal)

theorem answersByTable_decodeLoad {w : Word} (hop : opcode w = 0x03) : AnswersByTable w (decodeLoad w) :=
  .onFunct3 hop rfl <| .onFunct3 hop rfl <| .onFunct3 hop rfl <| .onFunct3 hop rfl <| .onFunct3 hop rfl .illegal

theorem answersByTable_decodeStore {w : Word} (hop : opcode w = 0x23) : AnswersByTable w (decodeStore w) :=
  .onFunct3 hop rfl <| .onFunct3 hop rfl <| .onFunct3 hop rfl .illegal

theorem answersByTable_decodeBranch {w : Word} (hop : opcode w = 0x63) : AnswersByTable w (decodeBranch w) :=
  .onFunct3 hop rfl <| .onFunct3 hop rfl <| .onFunct3 hop rfl <| .onFunct3 hop rfl <| .onFunct3 hop rfl <|
    .onFunct3 hop rfl .illegal

theorem answersByTable_decodeJalr {w : Word} (hop : opcode w = 0x67) : AnswersByTable w (decodeJalr w) :=
  .onFunct3 hop rfl .illegal

theorem answersByTable_decodeMiscMem {w : Word} (hop : opcode w = 0x0F) : AnswersByTable w (decodeMiscMem w) :=
  .onFunct3 hop rfl <| .onFunct3 hop rfl .illegal

/-- For funct3 000 the whole word is compared, by the decoder and by the table (decision D6). -/
theorem answersByTable_decodeSystem {w : Word} (hop : opcode w = 0x73) : AnswersByTable w (decodeSystem w) := by
  unfold decodeSystem
  refine .ite (fun _ => ?environment) ?csr
  case environment =>
    exact .ite (fun hw => .row ((and_maskAll w).trans hw)) (.ite (fun hw => .row ((and_maskAll w).trans hw)) .illegal)
  case csr =>
    exact .onFunct3 hop rfl <| .onFunct3 hop rfl <| .onFunct3 hop rfl <| .onFunct3 hop rfl <| .onFunct3 hop rfl <|
      .onFunct3 hop rfl .illegal

/-! ### The first level of the dispatch -/

theorem answersByTable_decodeWord (w : Word) : AnswersByTable w (decodeWord w) :=
  .ite answersByTable_decodeLoad <|
  .ite answersByTable_decodeMiscMem <|
  .ite answersByTable_decodeOpImm <|
  .ite (fun hop => .row (rowAccepts_of_opcode hop rfl)) <|
  .ite answersByTable_decodeStore <|
  .ite answersByTable_decodeOp <|
  .ite (fun hop => .row (rowAccepts_of_opcode hop rfl)) <|
  .ite answersByTable_decodeBranch <|
  .ite answersByTable_decodeJalr <|
  .ite (fun hop => .row (rowAccepts_of_opcode hop rfl)) <|
  .ite answersByTable_decodeSystem .illegal

/-- Outside the table the only answer is the explicit default. -/
theorem AnswersByTable.eq_illegal {w : Word} {r : Except DecodeReject Instr} (h : AnswersByTable w r)
    (hout : ∀ i, ¬ RowAccepts i w) : r = .error (.illegalInstruction w) := by
  cases h with
  | illegal => rfl
  | row h => exact absurd h (hout _)

/-! ### From the row to the fields

The match value `b` of a row lies within its mask; the fields are stated as bits of `b`, which `simp` evaluates. -/

theorem and_maskOp_iff {b : Word} (hb : b &&& maskOp = b) (w : Word) :
    w &&& maskOp = b ↔ opcode w = b.extractLsb 6 0 := by
  change _ ↔ opcode w = opcode b
  rw [← and_maskOp w, ← (and_maskOp b (opcode b)).mpr rfl, hb]

theorem and_maskOpF3_iff {b : Word} (hb : b &&& maskOpF3 = b) (w : Word) :
    w &&& maskOpF3 = b ↔ funct3 w = b.extractLsb 14 12 ∧ opcode w = b.extractLsb 6 0 := by
  change _ ↔ funct3 w = funct3 b ∧ opcode w = opcode b
  rw [← and_maskOpF3 w, ← (and_maskOpF3 b (funct3 b) (opcode b)).mpr ⟨rfl, rfl⟩, hb]

theorem and_maskOpF3F7_iff {b : Word} (hb : b &&& maskOpF3F7 = b) (w : Word) :
    w &&& maskOpF3F7 = b ↔
      funct7 w = b.extractLsb 31 25 ∧ funct3 w = b.extractLsb 14 12 ∧ opcode w = b.extractLsb 6 0 := by
  change _ ↔ funct7 w = funct7 b ∧ funct3 w = funct3 b ∧ opcode w = opcode b
  rw [← and_maskOpF3F7 w, ← (and_maskOpF3F7 b (funct7 b) (funct3 b) (opcode b)).mpr ⟨rfl, rfl, rfl⟩, hb]

/-- The row's mask says which fields the dispatch finds in the word, and they lead it to an instruction. -/
theorem decodeWord_of_rowAccepts {i : Instr} {w : Word} (h : RowAccepts i w) : ∃ j, decodeWord w = .ok j := by
  cases i <;> simp only [RowAccepts, tableRow] at h
  case ecall | ebreak =>
    obtain rfl := (and_maskAll w).symm.trans h
    exact ⟨_, rfl⟩
  case lui | auipc | jal =>
    have hop := (and_maskOp_iff (by decide) w).mp h
    simp [decodeWord, hop]
  case add | sub | sll | slt | sltu | xor | srl | sra | or | and =>
    obtain ⟨hf7, hf3, hop⟩ := (and_maskOpF3F7_iff (by decide) w).mp h
    simp [decodeWord, hop, decodeOp, hf7, hf3]
  case slli | srli | srai =>
    obtain ⟨hf7, hf3, hop⟩ := (and_maskOpF3F7_iff (by decide) w).mp h
    simp [decodeWord, hop, decodeOpImm, hf7, hf3]
  all_goals
    obtain ⟨hf3, hop⟩ := (and_maskOpF3_iff (by decide) w).mp h
    simp [decodeWord, hop, decodeOpImm, decodeLoad, decodeStore, decodeBranch, decodeJalr, decodeMiscMem,
      decodeSystem, hf3]

/-! ### The obligation -/

/-- Settles O5: a word that a row accepts decodes, so no row accepts an illegal word; and the dispatch answers
every other word with the explicit default. -/
theorem wordOutsideTheTableIsIllegal : Obligations.WordOutsideTheTableIsIllegal := by
  refine fun w => ⟨fun hill i hrow => ?_, (answersByTable_decodeWord w).eq_illegal⟩
  obtain ⟨j, hj⟩ := decodeWord_of_rowAccepts hrow
  cases hill.symm.trans hj

end Sys2Proof

/-! ## The register-register instructions (spec/40_integer_register.md)

Each of them ends in `writeBack`, so it leaves a register result; what is left to say is the value, which the laws of
the operators of R9 and R11 give as a number or bit by bit. -/

namespace Sys2Proof.Machine

/-! ### An instruction that writes back leaves a register result (R120) -/

theorem registerResult_of_writeBack_eq {i : Instr} {s : State} {rd : RegNum} {v result : Word}
    (he : exec i s = writeBack rd v s) (hv : v = result) :
    ∃ t, exec i s = .next t ∧ RegisterResult s t rd result (s.pc + 4) :=
  ⟨_, he, hv ▸ registerResult_writeReg_retire s rd v s.nextPc⟩

/-- The same for a result of which only a property `P` is stated. -/
theorem registerResult_of_writeBack {i : Instr} {s : State} {rd : RegNum} {v : Word} {P : Word → Prop}
    (he : exec i s = writeBack rd v s) (hv : P v) :
    ∃ t result, exec i s = .next t ∧ RegisterResult s t rd result (s.pc + 4) ∧ P result :=
  ⟨_, v, he, registerResult_writeReg_retire s rd v s.nextPc, hv⟩

/-! ### The operators as numbers -/

/-- The difference of the signed readings, modulo 2^32 (R122). -/
theorem sub_eq_ofInt (a b : Word) : a - b = BitVec.ofInt 32 (a.toInt - b.toInt) :=
  BitVec.eq_of_toInt_eq (BitVec.toInt_sub.trans (BitVec.toInt_ofInt _).symm)

/-- A left shift multiplies by the power of 2, modulo 2^32 (R11). -/
theorem toNat_shiftLeft (a : Word) (n : BitVec 5) : (shiftLeft a n).toNat = a.toNat * 2 ^ n.toNat % 2 ^ 32 := by
  rw [shiftLeft, BitVec.toNat_shiftLeft, Nat.shiftLeft_eq]

/-- A logical right shift is the unsigned quotient (R11). -/
theorem toNat_shiftRightLogical (a : Word) (n : BitVec 5) :
    (shiftRightLogical a n).toNat = a.toNat / 2 ^ n.toNat := by
  rw [shiftRightLogical, BitVec.toNat_ushiftRight, Nat.shiftRight_eq_div_pow]

/-- An arithmetic right shift is the signed quotient rounded down (R11). -/
theorem toInt_shiftRightArith (a : Word) (n : BitVec 5) :
    (shiftRightArith a n).toInt = a.toInt / 2 ^ n.toNat := by
  rw [shiftRightArith, BitVec.toInt_sshiftRight, Int.shiftRight_eq_div_pow, Nat.cast_pow, Nat.cast_ofNat]

theorem boolWord_ltSigned (a b : Word) : boolWord (ltSigned a b) = if a.toInt < b.toInt then 1 else 0 := by
  simp only [boolWord, ltSigned, decide_eq_true_eq]

theorem boolWord_ltUnsigned (a b : Word) : boolWord (ltUnsigned a b) = if a.toNat < b.toNat then 1 else 0 := by
  simp only [boolWord, ltUnsigned, decide_eq_true_eq]

/-! ### The obligations -/

/-- Settles O16: the sum of the unsigned readings and the difference of the signed ones, each modulo 2^32. -/
theorem addAndSubAreModuloTwoToThe32 : Obligations.AddAndSubAreModuloTwoToThe32 := by
  intro s rd rs1 rs2
  exact ⟨registerResult_of_writeBack_eq rfl (BitVec.add_def _ _),
    registerResult_of_writeBack_eq rfl (sub_eq_ofInt _ _),
    Laws.TableRow.add rd rs1 rs2, Laws.TableRow.sub rd rs1 rs2⟩

/-- Settles O17, by what each bit of a xor, an or and an and is. -/
theorem logicalRegisterInstructionsAreBitwise : Obligations.LogicalRegisterInstructionsAreBitwise := by
  intro s rd rs1 rs2
  refine ⟨?xor, ?or, ?and,
    Laws.TableRow.xor rd rs1 rs2, Laws.TableRow.or rd rs1 rs2, Laws.TableRow.and rd rs1 rs2⟩
  case xor => exact registerResult_of_writeBack rfl fun _ => BitVec.getLsbD_xor
  case or => exact registerResult_of_writeBack rfl fun _ => BitVec.getLsbD_or
  case and => exact registerResult_of_writeBack rfl fun _ => BitVec.getLsbD_and

/-- Settles O18: a shift by the five bits `regShamt` is a product or a quotient by the power of 2, and those bits are
the register modulo 32. -/
theorem registerShiftsUseTheLowFiveBits : Obligations.RegisterShiftsUseTheLowFiveBits := by
  intro s rd rs1 rs2
  simp only [← toNat_regShamt]
  refine ⟨?sll, ?srl, ?sra,
    Laws.TableRow.sll rd rs1 rs2, Laws.TableRow.srl rd rs1 rs2, Laws.TableRow.sra rd rs1 rs2⟩
  case sll => exact registerResult_of_writeBack rfl (toNat_shiftLeft _ _)
  case srl => exact registerResult_of_writeBack rfl (toNat_shiftRightLogical _ _)
  case sra => exact registerResult_of_writeBack rfl (toInt_shiftRightArith _ _)

/-- Settles O19, by the two readings of the comparison. -/
theorem registerComparisonsGiveOneOrZero : Obligations.RegisterComparisonsGiveOneOrZero := by
  intro s rd rs1 rs2
  exact ⟨registerResult_of_writeBack_eq rfl (boolWord_ltSigned _ _),
    registerResult_of_writeBack_eq rfl (boolWord_ltUnsigned _ _),
    Laws.TableRow.slt rd rs1 rs2, Laws.TableRow.sltu rd rs1 rs2⟩

end Sys2Proof.Machine

/-! ## The register-immediate instructions, LUI and AUIPC (spec/41_integer_immediate.md)

They end in `writeBack` as well, so what is left is the value with the immediate as its second operand; and, for the
shifts, which words of their funct3 are no instruction. -/

namespace Sys2Proof

/-! ### The other words with the funct3 of a shift (R89, R96) -/

/-- The mask of `word[31:25]` keeps funct7 in its place. -/
theorem and_funct7Mask (w : Word) : w &&& 0xFE000000 = encodeR (funct7 w) 0 0 0 0 0 := by
  refine BitVec.eq_of_getLsbD_eq fun i hi => ?_
  rw [BitVec.getLsbD_and, getLsbD_encodeR _ _ _ _ _ _ hi]
  interval_cases i <;> simp [funct7, BitVec.extractLsb]

/-- A word whose masked `word[31:25]` is not that of `f7` has another funct7. -/
theorem funct7_ne_of_and_funct7Mask_ne {w : Word} {f7 : BitVec 7} (h : w &&& 0xFE000000 ≠ encodeR f7 0 0 0 0 0) :
    funct7 w ≠ f7 := fun hf7 => h (hf7 ▸ and_funct7Mask w)

theorem decodeWord_illegal_shiftLeft {w : Word} (h : w &&& maskOpF3 = 0x00001013) (h00 : funct7 w ≠ 0x00#7) :
    decodeWord w = .error (.illegalInstruction w) := by
  obtain ⟨hf3, hop⟩ := (and_maskOpF3_iff (by decide) w).mp h
  simp [decodeWord, hop, decodeOpImm, hf3, h00, illegal]

theorem decodeWord_illegal_shiftRight {w : Word} (h : w &&& maskOpF3 = 0x00005013) (h00 : funct7 w ≠ 0x00#7)
    (h20 : funct7 w ≠ 0x20#7) : decodeWord w = .error (.illegalInstruction w) := by
  obtain ⟨hf3, hop⟩ := (and_maskOpF3_iff (by decide) w).mp h
  simp [decodeWord, hop, decodeOpImm, hf3, h00, h20, illegal]

end Sys2Proof

namespace Sys2Proof.Machine

/-! ### The operators with an immediate operand, as numbers -/

/-- The sum of the signed readings, modulo 2^32 (R141). -/
theorem add_imm12_eq_ofInt (a : Word) (imm : BitVec 12) : a + imm12 imm = BitVec.ofInt 32 (a.toInt + imm.toInt) := by
  rw [← toInt_imm12, BitVec.ofInt_add, BitVec.ofInt_toInt, BitVec.ofInt_toInt]

theorem boolWord_ltSigned_imm12 (a : Word) (imm : BitVec 12) :
    boolWord (ltSigned a (imm12 imm)) = if a.toInt < imm.toInt then 1 else 0 := by
  rw [boolWord_ltSigned, toInt_imm12]

/-- The comparison is unsigned, the immediate sign-extended before it (R143). -/
theorem boolWord_ltUnsigned_imm12 (a : Word) (imm : BitVec 12) :
    boolWord (ltUnsigned a (imm12 imm)) = if (a.toNat : Int) < imm.toInt % 2 ^ 32 then 1 else 0 := by
  simp only [boolWord_ltUnsigned, ← toNat_imm12, Nat.cast_lt]

theorem immU_eq_ofNat (imm20 : BitVec 20) : immU imm20 = BitVec.ofNat 32 (imm20.toNat * 2 ^ 12) := by
  rw [← toNat_immU, BitVec.ofNat_toNat, BitVec.setWidth_eq]

theorem add_immU_eq_ofNat (a : Word) (imm20 : BitVec 20) :
    a + immU imm20 = BitVec.ofNat 32 (a.toNat + imm20.toNat * 2 ^ 12) := by
  rw [← toNat_immU, BitVec.add_def]

/-! ### The obligations -/

/-- Settles O20, by the two readings of the sign-extended immediate: as the signed field, and as that modulo 2^32. -/
theorem immediateAddAndComparisonsSignExtend : Obligations.ImmediateAddAndComparisonsSignExtend := by
  intro s rd rs1 imm
  exact ⟨registerResult_of_writeBack_eq rfl (add_imm12_eq_ofInt _ _),
    registerResult_of_writeBack_eq rfl (boolWord_ltSigned_imm12 _ _),
    registerResult_of_writeBack_eq rfl (boolWord_ltUnsigned_imm12 _ _),
    Laws.TableRow.addi rd rs1 imm, Laws.TableRow.slti rd rs1 imm, Laws.TableRow.sltiu rd rs1 imm⟩

/-- Settles O21: each bit of the result is the operator on two bits, and bit `i` of the immediate is bit `min i 11`
of its field. -/
theorem logicalImmediateInstructionsAreBitwise : Obligations.LogicalImmediateInstructionsAreBitwise := by
  intro s rd rs1 imm
  refine ⟨registerResult_of_writeBack rfl fun i hi => ?xor, registerResult_of_writeBack rfl fun i hi => ?or,
    registerResult_of_writeBack rfl fun i hi => ?and,
    Laws.TableRow.xori rd rs1 imm, Laws.TableRow.ori rd rs1 imm, Laws.TableRow.andi rd rs1 imm⟩
  all_goals rw [← getLsbD_imm12 imm hi]
  case xor => exact BitVec.getLsbD_xor
  case or => exact BitVec.getLsbD_or
  case and => exact BitVec.getLsbD_and

/-- Settles O22: a shift by shamt is a product or a quotient by the power of 2; and the dispatch finds no instruction
for the funct3 of a shift when funct7 is none of its values. -/
theorem immediateShiftsUseShamt : Obligations.ImmediateShiftsUseShamt := by
  intro s rd rs1 shamt
  refine ⟨?slli, ?srli, ?srai,
    Laws.TableRow.slli rd rs1 shamt, Laws.TableRow.srli rd rs1 shamt, Laws.TableRow.srai rd rs1 shamt, ?left, ?right⟩
  case slli => exact registerResult_of_writeBack rfl (toNat_shiftLeft _ _)
  case srli => exact registerResult_of_writeBack rfl (toNat_shiftRightLogical _ _)
  case srai => exact registerResult_of_writeBack rfl (toInt_shiftRightArith _ _)
  case left =>
    intro w h h00
    exact decodeWord_illegal_shiftLeft h (funct7_ne_of_and_funct7Mask_ne h00)
  case right =>
    intro w h h00 h20
    exact decodeWord_illegal_shiftRight h (funct7_ne_of_and_funct7Mask_ne h00) (funct7_ne_of_and_funct7Mask_ne h20)

/-- Settles O23, by the U immediate as its field times 2^12. -/
theorem upperImmediatesFillTheTopTwentyBits : Obligations.UpperImmediatesFillTheTopTwentyBits := by
  intro s rd imm20
  exact ⟨registerResult_of_writeBack_eq rfl (immU_eq_ofNat imm20),
    registerResult_of_writeBack_eq rfl (add_immU_eq_ofNat s.pc imm20),
    Laws.TableRow.lui rd imm20, Laws.TableRow.auipc rd imm20⟩

end Sys2Proof.Machine

/-! ## Loads and stores (spec/42_load_store.md)

An access of any width that is aligned and in bounds retires: a load with the extended value in its register, a store
with its bytes in memory. One byte is always aligned, so for LB, LBU and SB only the bound is left to test. -/

namespace Sys2Proof.Machine

/-! ### A load or store that retires (R160) -/

/-- A load that is made writes back the extended value. -/
theorem loadInto_of_ok {rd : RegNum} {w : Width} {ea : Word} {extend : BitVec w.bits → Word} {s : State}
    (halign : ea.toNat % w.bytes = 0) (hin : ea.toNat + w.bytes ≤ s.mem.size) :
    loadInto rd w ea extend s = writeBack rd (extend (s.mem.read ea.toNat w)) s := by
  rw [loadInto, memRead_of_ok halign hin]

/-- A store that is made writes its bytes. -/
theorem storeFrom_of_ok {w : Width} {ea v : Word} {s : State}
    (halign : ea.toNat % w.bytes = 0) (hin : ea.toNat + w.bytes ≤ s.mem.size) :
    storeFrom w ea v s = .next ((s.withMem (s.mem.writeBytes ea.toNat v w.bytes)).retire s.nextPc) := by
  rw [storeFrom, memWrite_of_ok halign hin]

/-- Writing the bytes of `v` in bounds and retiring is a store of `v`. -/
theorem storeResult_writeBytes_retire {s : State} {w : Width} {ea : Word} (hwf : s.mem.wf = true)
    (hin : ea.toNat + w.bytes ≤ s.mem.size) (v : Word) :
    StoreResult s ((s.withMem (s.mem.writeBytes ea.toNat v w.bytes)).retire s.nextPc) w ea v where
  pc := rfl
  status := rfl
  signal := rfl
  stored := fun _ hi => Memory.byte_writeBytes_at hwf hin v hi
  others := fun a ha => (Memory.byte_writeBytes hwf hin v a).trans (if_neg (by omega))
  size := Memory.writeBytes_size ..
  regs := fun _ => rfl
  csrs := fun _ => rfl

/-- An instruction that is a store retires with a store's result when its access is aligned and in bounds. -/
theorem storeResult_of_storeFrom {i : Instr} {s : State} {w : Width} {ea v : Word}
    (he : exec i s = storeFrom w ea v s) (hwf : s.mem.wf = true) (halign : ea.toNat % w.bytes = 0)
    (hin : ea.toNat + w.bytes ≤ s.mem.size) : ∃ t, exec i s = .next t ∧ StoreResult s t w ea v :=
  ⟨_, he.trans (storeFrom_of_ok halign hin), storeResult_writeBytes_retire hwf hin v⟩

/-! ### The extension of a loaded value (R10) -/

/-- Sign extension keeps the signed reading. -/
theorem toInt_sextLoad {n : Nat} (hn : n ≤ 32) (v : BitVec n) : (sextLoad v).toInt = v.toInt :=
  BitVec.toInt_signExtend_of_le hn

/-- Zero extension keeps the unsigned reading. -/
theorem toNat_zextLoad {n : Nat} (hn : n ≤ 32) (v : BitVec n) : (zextLoad v).toNat = v.toNat :=
  BitVec.toNat_setWidth_of_le hn

/-! ### Accesses of one byte -/

/-- Every address is aligned for one byte (R53). -/
theorem mod_byte_bytes (a : Nat) : a % Width.byte.bytes = 0 := Nat.mod_one a

/-- An in-bounds byte load is a write back of the extended byte. -/
theorem loadInto_byte_of_lt {rd : RegNum} {ea : Word} {extend : Byte → Word} {s : State}
    (hin : ea.toNat < s.mem.size) : loadInto rd .byte ea extend s = writeBack rd (extend (s.mem.byte ea.toNat)) s :=
  loadInto_of_ok (mod_byte_bytes _) hin

/-- An access of one byte outside memory can only be stopped by its bound. -/
theorem StopsOnBadAccess.outOfBounds_of_byte {i : Instr} {s : State} {ea : Word}
    (h : StopsOnBadAccess i s .byte ea) (hout : s.mem.size ≤ ea.toNat) :
    ∃ t, exec i s = .next t ∧ Stopped s t (.outOfBounds ea) := by
  obtain ⟨-, hbounds⟩ := h
  exact hbounds (mod_byte_bytes _) (Nat.lt_succ_of_le hout)

/-! ### The obligations -/

/-- Settles O25: in bounds each load writes back the byte, and its extension keeps the reading; out of bounds each
stops as a byte access does. -/
theorem byteLoadsExtendTheByte : Obligations.ByteLoadsExtendTheByte := by
  intro s rd rs1 imm ea
  refine ⟨fun hin => ⟨?lb, ?lbu⟩, fun hout i hi => ?stops, Laws.TableRow.lb rd rs1 imm, Laws.TableRow.lbu rd rs1 imm⟩
  case lb => exact registerResult_of_writeBack (loadInto_byte_of_lt hin) (toInt_sextLoad (by decide) _)
  case lbu => exact registerResult_of_writeBack (loadInto_byte_of_lt hin) (toNat_zextLoad (by decide) _)
  case stops =>
    rcases List.mem_pair.mp hi with rfl | rfl
    · exact (stopsOnBadAccess_loadInto (e := sextLoad) rfl).outOfBounds_of_byte hout
    · exact (stopsOnBadAccess_loadInto (e := zextLoad) rfl).outOfBounds_of_byte hout

/-- Settles O28, by the result of a store of any width and the stop of a byte access. -/
theorem byteStoreWritesTheLowByte : Obligations.ByteStoreWritesTheLowByte := by
  intro s rs2 rs1 imm hwf ea
  exact ⟨storeResult_of_storeFrom rfl hwf (mod_byte_bytes _),
    (stopsOnBadAccess_storeFrom rfl).outOfBounds_of_byte, Laws.TableRow.sb rs2 rs1 imm⟩

end Sys2Proof.Machine

/-! ## The CSR instructions (spec/44_csr.md)

Each of them is a `csrAccess`, so in a canonical bank it leaves a CSR result; what is left to say is the new value of
the CSR, bit by bit. -/

namespace Sys2Proof.Machine

/-! ### A CSR access in a canonical bank (R200) -/

/-- The old value in the register, the new one in the CSR, and the pc of the next instruction. -/
theorem csrResult_writeCsr_writeReg_retire {s : State} (hwf : s.csrWf = true) (rd : RegNum) (a : CsrNum)
    (new : Word) : CsrResult s (((s.writeCsr a new).writeReg rd (s.readCsr a)).retire s.nextPc) rd a new where
  pc := rfl
  status := by simp
  signal := rfl
  csr := by simp [State.readCsr_writeCsr_same hwf]
  csrs := fun b hb => by simp [State.readCsr_writeCsr_of_ne hwf hb]
  regs := fun r => by simp only [State.readReg_retire, State.readReg_writeReg, State.readReg_writeCsr]
  mem := sameMem_of_mem_eq (by simp)

theorem csrResult_of_csrAccess_eq {i : Instr} {s : State} {rd : RegNum} {a : CsrNum} {update : Word → Word}
    {new : Word} (hwf : s.csrWf = true) (he : exec i s = csrAccess rd a update s)
    (hnew : update (s.readCsr a) = new) : ∃ t, exec i s = .next t ∧ CsrResult s t rd a new :=
  ⟨_, he, hnew ▸ csrResult_writeCsr_writeReg_retire hwf rd a _⟩

/-- The same for a new value of which only a property `P` is stated. -/
theorem csrResult_of_csrAccess {i : Instr} {s : State} {rd : RegNum} {a : CsrNum} {update : Word → Word}
    {P : Word → Prop} (hwf : s.csrWf = true) (he : exec i s = csrAccess rd a update s)
    (hnew : P (update (s.readCsr a))) : ∃ t new, exec i s = .next t ∧ CsrResult s t rd a new ∧ P new :=
  ⟨_, _, he, csrResult_writeCsr_writeReg_retire hwf rd a _, hnew⟩

/-! ### The new values, bit by bit -/

/-- Clearing in `v` the bits of `mask`; above bit 31 both sides are 0. -/
theorem getLsbD_and_not (v mask : Word) (i : Nat) :
    (v &&& ~~~mask).getLsbD i = (v.getLsbD i && !mask.getLsbD i) := by
  rw [BitVec.getLsbD_and, BitVec.getLsbD_not]
  by_cases hi : i < 32
  · rw [decide_eq_true hi, Bool.true_and]
  · rw [BitVec.getLsbD_of_ge v i (Nat.le_of_not_lt hi), Bool.false_and, Bool.false_and]

/-- The unsigned value of the field, as a word (R90). -/
theorem zextUimm_eq_ofNat (uimm : BitVec 5) : zextUimm uimm = BitVec.ofNat 32 uimm.toNat :=
  (BitVec.ofNat_toNat 32 uimm).symm

/-- The field's own five bits, and 0 above them (R90). -/
theorem getLsbD_zextUimm (uimm : BitVec 5) (i : Nat) : (zextUimm uimm).getLsbD i = uimm.getLsbD i := by
  have hin (h : uimm.getLsbD i = true) : i < 32 := (BitVec.lt_of_getLsbD h).trans (by decide)
  rw [zextUimm, BitVec.getLsbD_setWidth, Bool.and_eq_right_iff_imp]
  simpa using hin

/-! ### The obligations -/

/-- Settles O35: each is a CSR access in a canonical bank, and a bit of the zero-extended immediate is a bit of its
field. -/
theorem csrImmediateFormsReadAndModify : Obligations.CsrImmediateFormsReadAndModify := by
  intro s rd a uimm hwf
  refine ⟨?csrrwi, ?csrrsi, ?csrrci,
    Laws.TableRow.csrrwi rd a uimm, Laws.TableRow.csrrsi rd a uimm, Laws.TableRow.csrrci rd a uimm⟩
  case csrrwi => exact csrResult_of_csrAccess_eq (update := fun _ => zextUimm uimm) hwf rfl (zextUimm_eq_ofNat uimm)
  case csrrsi =>
    refine csrResult_of_csrAccess (update := fun old => old ||| zextUimm uimm) hwf rfl fun i => ?_
    rw [BitVec.getLsbD_or, getLsbD_zextUimm]
  case csrrci =>
    refine csrResult_of_csrAccess (update := fun old => old &&& ~~~zextUimm uimm) hwf rfl fun i => ?_
    rw [getLsbD_and_not, getLsbD_zextUimm]

end Sys2Proof.Machine

/-! ## The step and its results (spec/60_exceptions.md)

An instruction stops the machine, or leaves it as it ran with a signal that the instruction alone decides; so the four
results of R241 are read off the instruction. What stopped it, and what the retire observer gets, follow as well. -/

namespace Sys2Proof.Machine

/-! ### The result of a step (R241) -/

/-- The signal an instruction attaches to its result when it retires (R256). -/
def envSignal : Instr → Option EnvSignal
  | .ecall => some .envCall
  | .ebreak => some .envBreak
  | _ => none

/-- Only ECALL and EBREAK are environment instructions. -/
theorem eq_ecall_or_ebreak_of_group {i : Instr} (h : i.group = .environment) : i = .ecall ∨ i = .ebreak := by
  cases i with
  | ecall => exact .inl rfl
  | ebreak => exact .inr rfl
  | _ => cases h

theorem envSignal_of_group_ne {i : Instr} (h : i.group ≠ .environment) : envSignal i = none := by
  cases i with
  | ecall | ebreak => exact absurd rfl h
  | _ => rfl

/-- An instruction stops the machine, or retires: the status is as before and the signal is the instruction's. -/
theorem Ends.halts_or_retires {i : Instr} {s t : State} (h : Ends i s t) :
    (∃ c, t = s.halt c) ∨ (t.status = s.status ∧ t.signal = envSignal i) := by
  cases h with
  | accessStops | transferStops => exact .inl ⟨_, rfl⟩
  | signals g hg hi =>
    refine .inr ⟨rfl, ?_⟩
    rcases eq_ecall_or_ebreak_of_group hg with rfl | rfl
    · rw [hi.mpr rfl]; rfl
    · cases g with
      | envCall => cases hi.mp rfl
      | envBreak => rfl
  | writesBack | jumps | branches | fallsThrough | stores | modifiesCsr =>
    have hg : i.group ≠ .environment := by intro henv; simp_all
    exact .inr ⟨by simp, (envSignal_of_group_ne hg).symm⟩

/-- In Running the result is the signal's. -/
theorem State.stepResult_of_running {t : State} (h : t.status = .running) :
    (t.signal = none → t.stepResult = .retired) ∧
    (t.signal = some .envCall → t.stepResult = .retiredEnvCall) ∧
    (t.signal = some .envBreak → t.stepResult = .retiredEnvBreak) := by
  simp +contextual [State.stepResult, h]

/-- A stopped machine's result is the record of the stop. -/
@[simp] theorem State.stepResult_halt (s : State) (c : Condition) :
    (s.halt c).stepResult = .fatal (s.fatalRecord c) := rfl

/-- Settles O41: a bad fetch, an illegal word and a condition of the instruction each halt the machine; otherwise the
result is the signal of the instruction that retired. -/
theorem everyStepHasOneOfTheFourResults : Obligations.EveryStepHasOneOfTheFourResults := by
  intro s hs
  rcases step_cases s with ⟨record, hfatal, -⟩ | ⟨-, -, h⟩ | ⟨-, -, -, -, h⟩ | ⟨i, -, -, -, hi, h⟩
  · cases hs.symm.trans hfatal
  · exact ⟨_, h, rfl⟩
  · exact ⟨_, h, rfl⟩
  · obtain ⟨t, ht, hends⟩ := exec_ends i s
    refine ⟨t, h.trans ht, ?_⟩
    rcases hends.halts_or_retires with ⟨c, rfl⟩ | ⟨hstatus, hsignal⟩
    · rfl
    have hrun := hstatus.trans hs
    obtain ⟨hnone, hcall, hbreak⟩ := State.stepResult_of_running hrun
    cases i with
    | ecall => rw [hcall hsignal]; exact ⟨hrun, hi, ht⟩
    | ebreak => rw [hbreak hsignal]; exact ⟨hrun, hi, ht⟩
    | _ => rw [hnone hsignal]; exact ⟨hrun, _, hi, nofun, nofun, ht⟩

/-! ### Which instruction raises which condition (R242) -/

/-- Settles O43: of the ways of `Ends` only a stopped access and a stopped transfer are Fatal, and a byte access is
never misaligned. -/
theorem conditionsComeOnlyFromTheirInstructions : Obligations.ConditionsComeOnlyFromTheirInstructions := by
  intro s t i record hs hi hstep hfatal
  cases ends_of_step hs hi hstep with
  | accessStops w ea c ha hc hg hw =>
    obtain rfl := Status.fatal.inj hfatal
    rcases accessCondition_eq_some.mp hc with ⟨hmis, rfl⟩ | ⟨-, hout, rfl⟩
    · have hbyte : w ≠ .byte := by rintro rfl; exact hmis (mod_byte_bytes _)
      exact ⟨hw.resolve_left hbyte, w, ha, hmis⟩
    · exact ⟨hg, w, ha, hout⟩
  | transferStops target ht hg =>
    obtain rfl := Status.fatal.inj hfatal
    exact ⟨hg, ht⟩
  | writesBack | jumps | branches | fallsThrough | stores | modifiesCsr | signals => simp [hs] at hfatal

/-! ### The retire observer (R262) -/

/-- A fetched word that decodes is the instruction the step executes (R240). -/
theorem State.fetchDecode_of_fetchedWord {s : State} {w : Word} {i : Instr} (hw : s.fetchedWord = some w)
    (hi : decodeWord w = .ok i) : s.fetchDecode = .ok i := by
  rcases fetch_cases s.pc s.mem with ⟨hout, -⟩ | ⟨hin, hf⟩
  · cases (State.fetchedWord_of_lt hout).symm.trans hw
  · obtain rfl := Option.some.inj ((State.fetchedWord_of_le hin).symm.trans hw)
    simp only [State.fetchDecode, hf, hi]

/-- The observer's line for a step that executes an instruction. -/
theorem retireLine_of_step {s t : State} {w : Word} {i : Instr} (hw : s.fetchedWord = some w)
    (hi : decodeWord w = .ok i) (hstep : step s = .next t) :
    retireLine s =
      if t.status = .running then some { pc := s.pc, word := w, mnemonic := i.mnemonic } else none := by
  simp only [retireLine, hstep, hw, State.fetchDecode_of_fetchedWord hw hi]

/-- Settles O57, by the observer's line for a step, which is there exactly when the step stays Running. -/
theorem observerSeesRetiredInstructions : Obligations.ObserverSeesRetiredInstructions := by
  intro s t w i hw hi hstep
  rw [retireLine_of_step hw hi hstep]
  exact ⟨fun hrun => if_pos hrun, fun record hfatal => if_neg (by simp [hfatal])⟩

end Sys2Proof.Machine

/-! ## The run protocol (spec/70_reset_and_hazards.md)

One turn of the harness's loop, read off the step that it takes, and the turn that ends the run. -/

namespace Sys2Proof.Machine

/-! ### One turn of the loop (R288) -/

/-- After a step that retires, the word fetched before it decides whether the run ends. -/
theorem runProtocol_succ_of_running {s t : State} (fuel : Nat) (hstep : step s = .next t)
    (hrun : t.status = .running) :
    runProtocol (fuel + 1) s =
      if s.fetchedWord = some ecallWord then (if t.readReg 10 = 0 then .pass t else .fail t)
      else runProtocol fuel t := by
  simp only [runProtocol, hstep, hrun]

/-! ### The terminating step (R230, R289) -/

theorem decodeWord_ecallWord : decodeWord ecallWord = .ok .ecall := by decide

theorem exec_ecall (s : State) : exec .ecall s = .next (s.retireWith s.nextPc (some .envCall)) := rfl

theorem step_of_ecallWord {s : State} (hs : s.status = .running) (hw : s.fetchedWord = some ecallWord) :
    step s = .next (s.retireWith s.nextPc (some .envCall)) :=
  (step_eq_exec hs (State.fetchDecode_of_fetchedWord hw decodeWord_ecallWord)).trans (exec_ecall s)

/-- Settles O55: the step of the ECALL word retires with every register as it was, so the loop's test of `x[10]` after
the step is the test of `x[10]` at the fetch. -/
theorem ecallWordEndsTheRun : Obligations.EcallWordEndsTheRun := by
  intro s fuel hs (hw : s.fetchedWord = some ecallWord)
  have hstep := step_of_ecallWord hs hw
  have hrun : (s.retireWith s.nextPc (some .envCall)).status = .running := hs
  obtain ⟨-, hcall, -⟩ := State.stepResult_of_running hrun
  refine ⟨_, hstep, hcall rfl, ?_⟩
  rw [runProtocol_succ_of_running fuel hstep hrun, if_pos hw, State.readReg_retireWith]

end Sys2Proof.Machine

/-! ## Encoding and decoding are inverse (spec/30_encoding.md R81 to R103)

The encoder's word has the fields the dispatch reads, so decoding it finds the instruction and its operands; and at
every leaf of the dispatch the tested and the copied fields together are the whole word, so encoding gives it back. -/

namespace Sys2Proof

/-! ### The decoder on an encoded instruction -/

/-- By format: the dispatch reads opcode, funct3 and funct7 back, then the operand fields. -/
theorem decodeWord_encode {i : Instr} (h : i.wf = true) : decodeWord (encode i) = .ok i := by
  cases i
  case fence | fenceI | ecall | ebreak => rfl
  case lui | auipc => simp [encode, decodeWord]
  case jal => simp [encode, decodeWord, offsetJField_encodeJ h]
  case beq | bne | blt | bltu | bge | bgeu => simp [encode, decodeWord, decodeBranch, offsetBField_encodeB h]
  case sb | sh | sw => simp [encode, decodeWord, decodeStore]
  case add | sub | sll | slt | sltu | xor | srl | sra | or | and => simp [encode, decodeWord, decodeOp]
  case addi | slti | sltiu | xori | ori | andi | slli | srli | srai => simp [encode, decodeWord, decodeOpImm]
  case lb | lbu | lh | lhu | lw => simp [encode, decodeWord, decodeLoad]
  case jalr => simp [encode, decodeWord, decodeJalr]
  case csrrw | csrrs | csrrc | csrrwi | csrrsi | csrrci => simp [encode, decodeWord, decodeSystem]

/-- Settles O2: the decoder reads every field of the encoded word back, and a word's bytes decode as the word. -/
theorem decodeOfEncodedBytes : Obligations.DecodeOfEncodedBytes := by
  intro i rest hwf
  refine ⟨decodeWord_encode hwf, ?_⟩
  rw [encodeBytes, decode_bytesOfWord, decodeWord_encode hwf]
  rfl

/-! ### A word from its fields, some of them known -/

section
variable {w : Word} {op : BitVec 7} {f3 : BitVec 3}

theorem encodeR_eq_word {f7 : BitVec 7} (hop : opcode w = op) (hf7 : funct7 w = f7) (hf3 : funct3 w = f3) :
    encodeR f7 (rs2Field w) (rs1Field w) f3 (rdField w) op = w := by
  subst hop hf7 hf3
  exact encodeR_fields w

theorem encodeI_eq_word (hop : opcode w = op) (hf3 : funct3 w = f3) :
    encodeI (immIField w) (rs1Field w) f3 (rdField w) op = w := by
  subst hop hf3
  exact encodeI_fields w

theorem encodeS_eq_word (hop : opcode w = op) (hf3 : funct3 w = f3) :
    encodeS (immSField w) (rs2Field w) (rs1Field w) f3 op = w := by
  subst hop hf3
  exact encodeS_fields w

theorem encodeB_eq_word (hop : opcode w = op) (hf3 : funct3 w = f3) :
    encodeB (offsetBField w) (rs2Field w) (rs1Field w) f3 op = w := by
  subst hop hf3
  exact encodeB_fields w

theorem encodeU_eq_word (hop : opcode w = op) : encodeU (immUField w) (rdField w) op = w := by
  subst hop
  exact encodeU_fields w

theorem encodeJ_eq_word (hop : opcode w = op) : encodeJ (offsetJField w) (rdField w) op = w := by
  subst hop
  exact encodeJ_fields w

end

/-! ### The answers of the dispatch, encoded again -/

/-- An answer of the decoder from which the word can be had again: a well-formed instruction whose encoding is the
word, but for the fences, which forget the bits that R101 ignores. -/
inductive ReEncodes (w : Word) : Except DecodeReject Instr → Prop where
  | illegal : ReEncodes w (illegal w)
  | instr {i : Instr} (hwf : i.wf = true) (henc : encode i = w) : ReEncodes w (.ok i)
  | fence : ReEncodes w (.ok .fence)
  | fenceI : ReEncodes w (.ok .fenceI)

/-- A test of the dispatch. -/
theorem ReEncodes.ite {w : Word} {c : Prop} [Decidable c] {a b : Except DecodeReject Instr}
    (hthen : c → ReEncodes w a) (helse : ReEncodes w b) : ReEncodes w (if c then a else b) := by
  split
  · exact hthen ‹_›
  · exact helse

theorem reEncodes_decodeOp {w : Word} (hop : opcode w = 0x33) : ReEncodes w (decodeOp w) := by
  unfold decodeOp
  refine .ite (fun hf7 => ?_) (.ite (fun hf7 => ?_) .illegal)
  all_goals
    repeat refine .ite (fun hf3 => .instr rfl (encodeR_eq_word hop hf7 hf3)) ?_
    exact .illegal

/-- The shifts copy shamt where the others copy the immediate, so their word is put together with funct7. -/
theorem reEncodes_decodeOpImm {w : Word} (hop : opcode w = 0x13) : ReEncodes w (decodeOpImm w) := by
  have hI {f3 : BitVec 3} (hf3 : funct3 w = f3) := encodeI_eq_word hop hf3
  have hShift {f7 : BitVec 7} {f3 : BitVec 3} (hf3 : funct3 w = f3) (hf7 : funct7 w = f7) :=
    encodeR_eq_word hop hf7 hf3
  unfold decodeOpImm
  exact .ite (fun h => .instr rfl (hI h)) <|
    .ite (fun h => .ite (fun h7 => .instr rfl (hShift h h7)) .illegal) <|
    .ite (fun h => .instr rfl (hI h)) <|
    .ite (fun h => .instr rfl (hI h)) <|
    .ite (fun h => .instr rfl (hI h)) <|
    .ite (fun h => .ite (fun h7 => .instr rfl (hShift h h7)) <| .ite (fun h7 => .instr rfl (hShift h h7)) .illegal) <|
    .ite (fun h => .instr rfl (hI h)) <|
    .ite (fun h => .instr rfl (hI h)) .illegal

theorem reEncodes_decodeLoad {w : Word} (hop : opcode w = 0x03) : ReEncodes w (decodeLoad w) := by
  unfold decodeLoad
  repeat refine .ite (fun hf3 => .instr rfl (encodeI_eq_word hop hf3)) ?_
  exact .illegal

theorem reEncodes_decodeStore {w : Word} (hop : opcode w = 0x23) : ReEncodes w (decodeStore w) := by
  unfold decodeStore
  repeat refine .ite (fun hf3 => .instr rfl (encodeS_eq_word hop hf3)) ?_
  exact .illegal

theorem reEncodes_decodeBranch {w : Word} (hop : opcode w = 0x63) : ReEncodes w (decodeBranch w) := by
  unfold decodeBranch
  repeat refine .ite (fun hf3 => .instr (evenOffset_offsetBField w) (encodeB_eq_word hop hf3)) ?_
  exact .illegal

theorem reEncodes_decodeJalr {w : Word} (hop : opcode w = 0x67) : ReEncodes w (decodeJalr w) :=
  .ite (fun hf3 => .instr rfl (encodeI_eq_word hop hf3)) .illegal

theorem reEncodes_decodeMiscMem (w : Word) : ReEncodes w (decodeMiscMem w) :=
  .ite (fun _ => .fence) <| .ite (fun _ => .fenceI) .illegal

theorem reEncodes_decodeSystem {w : Word} (hop : opcode w = 0x73) : ReEncodes w (decodeSystem w) := by
  unfold decodeSystem
  refine .ite (fun _ => ?environment) ?csr
  case environment =>
    exact .ite (fun hw => .instr rfl hw.symm) <| .ite (fun hw => .instr rfl hw.symm) .illegal
  case csr =>
    repeat refine .ite (fun hf3 => .instr rfl (encodeI_eq_word hop hf3)) ?_
    exact .illegal

theorem reEncodes_decodeWord (w : Word) : ReEncodes w (decodeWord w) :=
  .ite reEncodes_decodeLoad <|
  .ite (fun _ => reEncodes_decodeMiscMem w) <|
  .ite reEncodes_decodeOpImm <|
  .ite (fun hop => .instr rfl (encodeU_eq_word hop)) <|
  .ite reEncodes_decodeStore <|
  .ite reEncodes_decodeOp <|
  .ite (fun hop => .instr rfl (encodeU_eq_word hop)) <|
  .ite reEncodes_decodeBranch <|
  .ite reEncodes_decodeJalr <|
  .ite (fun hop => .instr (evenOffset_offsetJField w) (encodeJ_eq_word hop)) <|
  .ite reEncodes_decodeSystem .illegal

/-- What a word decodes to is well-formed (R91). -/
theorem wf_of_decodeWord {w : Word} {i : Instr} (h : decodeWord w = .ok i) : i.wf = true := by
  have hre := h ▸ reEncodes_decodeWord w
  cases hre with
  | instr hwf => exact hwf
  | fence | fenceI => rfl

/-- Encoding what a word decodes to gives the word, but for the fences. -/
theorem encode_of_decodeWord {w : Word} {i : Instr} (h : decodeWord w = .ok i) (hfence : i ≠ .fence)
    (hfenceI : i ≠ .fenceI) : encode i = w := by
  have hre := h ▸ reEncodes_decodeWord w
  cases hre with
  | instr _ henc => exact henc
  | fence => exact absurd rfl hfence
  | fenceI => exact absurd rfl hfenceI

/-- Settles O3, leaf by leaf of the dispatch. -/
theorem encodeOfDecodedWord : Obligations.EncodeOfDecodedWord :=
  fun _ _ h => ⟨wf_of_decodeWord h, encode_of_decodeWord h⟩

/-! ### The table's instruction is the decoder's -/

/-- What the decoder answers is in a row of the table that accepts the word. -/
theorem rowAccepts_of_decodeWord {w : Word} {i : Instr} (h : decodeWord w = .ok i) : RowAccepts i w := by
  have htable := h ▸ answersByTable_decodeWord w
  cases htable with
  | row hrow => exact hrow

/-- The fields a row fixes lead the dispatch to that row's leaf, whatever the operands are. -/
theorem decodeWord_mnemonic_of_rowAccepts {i : Instr} {w : Word} (h : RowAccepts i w) :
    ∃ j, decodeWord w = .ok j ∧ j.mnemonic = i.mnemonic := by
  cases i <;> simp only [RowAccepts, tableRow] at h
  case ecall | ebreak =>
    obtain rfl := (and_maskAll w).symm.trans h
    exact ⟨_, rfl, rfl⟩
  case lui | auipc | jal =>
    have hop := (and_maskOp_iff (by decide) w).mp h
    simp [decodeWord, hop, Instr.mnemonic]
  case add | sub | sll | slt | sltu | xor | srl | sra | or | and | slli | srli | srai =>
    obtain ⟨hf7, hf3, hop⟩ := (and_maskOpF3F7_iff (by decide) w).mp h
    simp [decodeWord, hop, decodeOp, decodeOpImm, hf7, hf3, Instr.mnemonic]
  all_goals
    obtain ⟨hf3, hop⟩ := (and_maskOpF3_iff (by decide) w).mp h
    simp [decodeWord, hop, decodeOpImm, decodeLoad, decodeStore, decodeBranch, decodeJalr, decodeMiscMem,
      decodeSystem, hf3, Instr.mnemonic]

/-- Settles O4: an answer of the dispatch has an accepting row, and an accepting row is the one the dispatch finds. -/
theorem decodeAgreesWithTheMatchAndMaskTable : Obligations.DecodeAgreesWithTheMatchAndMaskTable :=
  fun _ => ⟨fun _ => rowAccepts_of_decodeWord, fun _ => decodeWord_mnemonic_of_rowAccepts⟩

/-! ### Sample words, fences and environment words (R94 to R102) -/

/-- Settles O1, by running the decoder on each word. -/
theorem sampleWordsDecode : Obligations.SampleWordsDecode := by
  refine ⟨?addi, ?sub, ?lhu, ?sw, ?jal, ?bne, ?csrrci, ?fence, ?ebreak⟩
  all_goals decide

/-- Settles O6: the masked word fixes opcode and funct3, and the MISC-MEM table tests nothing else. -/
theorem fenceFieldsAreIgnored : Obligations.FenceFieldsAreIgnored := by
  refine fun w => ⟨fun h => ?_, fun h => ?_⟩
  all_goals
    obtain ⟨hf3, hop⟩ := (and_maskOpF3_iff (by decide) w).mp h
    simp [decodeWord, hop, decodeMiscMem, hf3]

/-- Settles O7: ECALL and EBREAK encode to the only word that decodes to them; in the SYSTEM table funct3 000
compares the whole word and funct3 100 has no entry. -/
theorem environmentWordsAreExact : Obligations.EnvironmentWordsAreExact := by
  intro w
  refine ⟨⟨fun h => (encode_of_decodeWord h nofun nofun).symm, ?ecall⟩,
    ⟨fun h => (encode_of_decodeWord h nofun nofun).symm, ?ebreak⟩,
    fun h hcall hbreak => ?funct3_000, fun h => ?funct3_100⟩
  case ecall | ebreak =>
    rintro rfl
    rfl
  case funct3_000 =>
    obtain ⟨hf3, hop⟩ := (and_maskOpF3_iff (by decide) w).mp h
    have hcall : w ≠ 0x00000073#32 := hcall
    have hbreak : w ≠ 0x00100073#32 := hbreak
    simp [decodeWord, hop, decodeSystem, hf3, hcall, hbreak, illegal]
  case funct3_100 =>
    obtain ⟨hf3, hop⟩ := (and_maskOpF3_iff (by decide) w).mp h
    simp [decodeWord, hop, decodeSystem, hf3, illegal]

end Sys2Proof

/-! ## The step and what it keeps (spec/60_exceptions.md R240 to R254)

Each way a step ends says what it leaves unchanged; put together they are the frames of a step and the invariant. That
a transfer stops at a target of the form 4k + 2 rests on the decoder: what it answers has an even offset. -/

namespace Sys2Proof.Machine

/-! ### When a step executes, stops or is not taken -/

/-- Settles O38, by the word that the fetch gives. -/
theorem stepRunsTheDecodedInstruction : Obligations.StepRunsTheDecodedInstruction := by
  intro s w i hs hin hw hi
  have hfetched : s.fetchedWord = some w := hw ▸ State.fetchedWord_of_le hin
  exact step_eq_exec hs (State.fetchDecode_of_fetchedWord hfetched hi)

/-- The record of a stop, with the fetched word as it is known (R248). -/
theorem State.halt_status_of_fetchedWord {s : State} {c : Condition} {w : Option Word} (hw : s.fetchedWord = w) :
    (s.halt c).status = .fatal ⟨c, s.pc, w⟩ := hw ▸ rfl

/-- Settles O39: of the ways of a step in Running the fetch bound leaves one, and the illegal word another. -/
theorem stepStopsOnBadFetchOrIllegalWord : Obligations.StepStopsOnBadFetchOrIllegalWord := by
  intro s hs
  rcases step_cases s with ⟨_, hfatal, -⟩ | ⟨-, hout, hstep⟩ | ⟨_, -, hin, -, hstep⟩ | ⟨i, -, hin, hi, -, -⟩
  · cases hs.symm.trans hfatal
  · exact ⟨
      fun _ => ⟨_, hstep, stopped_halt .., State.halt_status_of_fetchedWord (State.fetchedWord_of_lt hout)⟩,
      fun hin => absurd hout hin.not_gt⟩
  · exact ⟨fun hout => absurd hout hin.not_gt,
      fun _ _ => ⟨_, hstep, stopped_halt .., State.halt_status_of_fetchedWord (State.fetchedWord_of_le hin)⟩⟩
  · exact ⟨fun hout => absurd hout hin.not_gt, fun _ hillegal => absurd hi (hillegal i)⟩

/-- Settles O40, by the first case of the step. -/
theorem noStepInFatal : Obligations.NoStepInFatal := by
  intro s record hfatal
  simp only [step, hfatal]

/-- Settles O42: the step has one of the four results, and a Fatal status is the last of them. -/
theorem fatalStepsArePrecise : Obligations.FatalStepsArePrecise := by
  intro s t record hs hstep hfatal
  obtain ⟨u, hu, hresult⟩ := everyStepHasOneOfTheFourResults s hs
  obtain rfl : u = t := Host.Outcome.next.inj (hu.symm.trans hstep)
  have hrecord : u.stepResult = .fatal record := by simp only [State.stepResult, hfatal]
  rwa [hrecord] at hresult

/-! ### What each way of ending leaves unchanged -/

section
variable {i : Instr} {s t : State}

theorem Ends.readReg_eq (h : Ends i s t) {r : RegNum} (hr : i.destination ≠ some r) : t.readReg r = s.readReg r := by
  have hother {rd : RegNum} (hd : i.destination = some rd) : r ≠ rd := fun e => hr (e ▸ hd)
  cases h with
  | writesBack rd v hd => exact s.readReg_writeReg_of_ne (hother hd) v
  | jumps rd _ _ hd => exact s.readReg_writeReg_of_ne (hother hd) s.nextPc
  | modifiesCsr rd a v hd => exact (s.writeCsr a v).readReg_writeReg_of_ne (hother hd) (s.readCsr a)
  | accessStops | transferStops | branches | fallsThrough | stores | signals => rfl

theorem Ends.csr_eq (h : Ends i s t) (hg : i.group ≠ .csr) : t.csr = s.csr := by
  cases h with
  | modifiesCsr _ _ _ _ hcsr => exact absurd hcsr hg
  | writesBack | jumps => exact s.writeReg_csr _ _
  | accessStops | transferStops | branches | fallsThrough | stores | signals => rfl

theorem Ends.mem_eq (h : Ends i s t) (hg : i.group ≠ .store) : t.mem = s.mem := by
  cases h with
  | stores _ _ _ _ hstore => exact absurd hstore hg
  | writesBack | jumps | modifiesCsr => exact State.writeReg_mem _ _ _
  | accessStops | transferStops | branches | fallsThrough | signals => rfl

theorem Ends.mem_size_eq (h : Ends i s t) : t.mem.size = s.mem.size := by
  cases h with
  | stores => exact Memory.writeBytes_size ..
  | writesBack | jumps | modifiesCsr => exact congrArg Memory.size (State.writeReg_mem _ _ _)
  | accessStops | transferStops | branches | fallsThrough | signals => rfl

end

/-- Settles O45, from the way the instruction ends. -/
theorem onlyTheDestinationRegisterChanges : Obligations.OnlyTheDestinationRegisterChanges :=
  fun _ _ _ _ hs hi hstep hr => (ends_of_step hs hi hstep).readReg_eq hr

/-- Settles O46, from the way the instruction ends. -/
theorem onlyCsrInstructionsChangeCsrs : Obligations.OnlyCsrInstructionsChangeCsrs :=
  fun _ _ _ hs hi hstep hg => (ends_of_step hs hi hstep).csr_eq hg

/-- Settles O47: a step that stops at the fetch or the decode changes the status alone, and one that executes ends as
its instruction does. -/
theorem onlyStoresChangeMemory : Obligations.OnlyStoresChangeMemory := by
  intro s t hs hstep
  rcases step_cases s with ⟨_, hfatal, -⟩ | ⟨-, -, h⟩ | ⟨-, -, -, -, h⟩ | ⟨i, -, -, -, hi, -⟩
  · cases hs.symm.trans hfatal
  · cases h.symm.trans hstep
    exact ⟨rfl, fun _ => rfl⟩
  · cases h.symm.trans hstep
    exact ⟨rfl, fun _ => rfl⟩
  · have hends := ends_of_step hs hi hstep
    exact ⟨hends.mem_size_eq, fun hg => hends.mem_eq (hg i hi)⟩

/-! ### Transfer targets are even (R27, R91) -/

theorem evenOffset_immJ {offset : BitVec 21} (h : evenOffset offset = true) : evenOffset (immJ offset) = true := by
  rwa [evenOffset, getLsbD_immJ offset (by decide)]

theorem evenOffset_immB {offset : BitVec 13} (h : evenOffset offset = true) : evenOffset (immB offset) = true := by
  rwa [evenOffset, getLsbD_immB offset (by decide)]

/-- A multiple of 4 and an even displacement make an even target, also when the sum wraps. -/
theorem toNat_add_mod_two {pc d : Word} (hpc : pc.toNat % 4 = 0) (hd : evenOffset d = true) :
    (pc + d).toNat % 2 = 0 := by
  have := toNat_mod_two_of_evenOffset hd
  rw [BitVec.toNat_add]
  omega

theorem State.jalrTarget_mod_two (s : State) (rs1 : RegNum) (imm : BitVec 12) :
    (s.jalrTarget rs1 imm).toNat % 2 = 0 :=
  toNat_mod_two_of_evenOffset (by simp [evenOffset, State.jalrTarget])

/-! ### The invariant -/

section
variable {s t : State}

/-- The state of a machine that ran, in which memory, bank and pc still meet their conditions, meets the invariant. -/
theorem State.Inv.of_running (hs : s.Inv) (hrun : t.status = .running) (hmem : t.mem.wf = true)
    (hcsr : t.csrWf = true) (hsize : t.mem.size = s.mem.size) (hpc : t.pc.toNat % 4 = 0) : t.Inv where
  memWf := hmem
  csrWf := hcsr
  memSize := hsize ▸ hs.memSize
  pcAligned := hpc
  record := fun _ hfatal => nomatch hrun.symm.trans hfatal

/-- A halted machine meets the invariant when the condition holds of the state it stopped in (R242 to R248). -/
theorem State.Inv.halt (hs : s.Inv) {c : Condition} (hc : RecordDescribes (s.fatalRecord c) s) : (s.halt c).Inv where
  memWf := hs.memWf
  csrWf := hs.csrWf
  memSize := hs.memSize
  pcAligned := hs.pcAligned
  record := fun _ hfatal => Status.fatal.inj hfatal ▸ ⟨hc.pc, hc.word, hc.condition⟩

theorem recordDescribes_badFetch (h : s.mem.size < s.pc.toNat + 4) :
    RecordDescribes (s.fatalRecord (.outOfBounds s.pc)) s := ⟨rfl, rfl, h⟩

theorem recordDescribes_illegal {e : DecodeReject} (hin : s.pc.toNat + 4 ≤ s.mem.size)
    (h : decodeWord (s.mem.read s.pc.toNat .word) = .error e) :
    RecordDescribes (s.fatalRecord .illegalInstruction) s :=
  ⟨rfl, rfl, _, State.fetchedWord_of_le hin, fun _ hi => nomatch h.symm.trans hi⟩

/-- No access is wider than 4 bytes, and every size divides 4. -/
theorem recordDescribes_access {w : Width} {ea : Word} {c : Condition}
    (h : accessCondition w ea s.mem = some c) : RecordDescribes (s.fatalRecord c) s := by
  refine ⟨rfl, rfl, ?_⟩
  rcases accessCondition_eq_some.mp h with ⟨hmis, rfl⟩ | ⟨-, hout, rfl⟩
  · change ea.toNat % 4 ≠ 0
    cases w <;> simp only [Width.bytes] at hmis <;> omega
  · change s.mem.size < ea.toNat + 4
    cases w <;> simp only [Width.bytes] at hout <;> omega

theorem recordDescribes_transfer {target : Word} (h4 : target.toNat % 4 ≠ 0) (h2 : target.toNat % 2 = 0) :
    RecordDescribes (s.fatalRecord (.instructionAddressMisaligned target)) s :=
  ⟨rfl, rfl, show target.toNat % 4 = 2 by omega⟩

/-- `pc + 4` is a multiple of 4 again, also when it wraps (R27). -/
theorem State.Inv.nextPc_aligned (hs : s.Inv) : s.nextPc.toNat % 4 = 0 := by
  have hpc := hs.pcAligned
  have h4 : (4 : Word).toNat = 4 := rfl
  rw [State.nextPc, BitVec.toNat_add, h4]
  omega

end

/-- A well-formed instruction keeps the invariant, however it ends. -/
theorem Ends.inv {i : Instr} {s t : State} (h : Ends i s t) (hwf : i.wf = true) (hs : s.Inv)
    (hrun : s.status = .running) : t.Inv := by
  cases h with
  | accessStops w ea c _ hc => exact hs.halt (recordDescribes_access hc)
  | transferStops target ht _ hk =>
    refine hs.halt (recordDescribes_transfer ht ?_)
    rcases hk with ⟨_, offset, rfl, rfl⟩ | ⟨_, rs1, imm, rfl, rfl⟩ | ⟨_, _, offset, hbranch, rfl⟩
    · exact toNat_add_mod_two hs.pcAligned (evenOffset_immJ hwf)
    · exact s.jalrTarget_mod_two rs1 imm
    · have heven : evenOffset offset = true := by
        rcases hbranch with rfl | rfl | rfl | rfl | rfl | rfl <;> exact hwf
      exact toNat_add_mod_two hs.pcAligned (evenOffset_immB heven)
  | writesBack rd v =>
    exact hs.of_running (by simp [hrun]) (by simp [hs.memWf]) (State.csrWf_congr (by simp) hs.csrWf) (by simp)
      hs.nextPc_aligned
  | jumps rd target ht =>
    exact hs.of_running (by simp [hrun]) (by simp [hs.memWf]) (State.csrWf_congr (by simp) hs.csrWf) (by simp) ht
  | branches target ht => exact hs.of_running hrun hs.memWf hs.csrWf rfl ht
  | fallsThrough | signals => exact hs.of_running hrun hs.memWf hs.csrWf rfl hs.nextPc_aligned
  | stores w ea v ha =>
    obtain ⟨-, hin⟩ := accessCondition_eq_none.mp ha
    exact hs.of_running hrun (Memory.wf_writeBytes hs.memWf hin v) hs.csrWf (Memory.writeBytes_size ..)
      hs.nextPc_aligned
  | modifiesCsr rd a v =>
    exact hs.of_running (by simp [hrun]) (by simp [hs.memWf])
      (State.csrWf_congr (State.writeReg_csr _ _ _) (State.csrWf_writeCsr hs.csrWf a v)) (by simp) hs.nextPc_aligned

/-- Settles O51: each stop of a step has a record that describes it, and the executed instruction is one that the
decoder answered, so it is well-formed and keeps the invariant. -/
theorem everyStepKeepsTheInvariant : Obligations.EveryStepKeepsTheInvariant := by
  intro s t hs hstep
  rcases step_cases s with
    ⟨_, -, h⟩ | ⟨-, hout, h⟩ | ⟨_, -, hin, hillegal, h⟩ | ⟨i, hrun, -, hdecode, hi, -⟩
  · cases h.symm.trans hstep
  · cases h.symm.trans hstep
    exact hs.halt (recordDescribes_badFetch hout)
  · cases h.symm.trans hstep
    exact hs.halt (recordDescribes_illegal hin hillegal)
  · exact (ends_of_step hrun hi hstep).inv (wf_of_decodeWord hdecode) hs hrun

end Sys2Proof.Machine

/-! ## The scattered immediates of a word (spec/30_encoding.md R85, R86, R88)

The field's bits by the scatter, and above the field copies of its top bit, which each format takes from bit 31. -/

namespace Sys2Proof.Machine

theorem getLsbD_imm12_immSField (w : Word) {i : Nat} (hi : i < 32) :
    (imm12 (immSField w)).getLsbD i =
      if i < 5 then w.getLsbD (i + 7) else if i < 11 then w.getLsbD (i + 20) else w.getLsbD 31 := by
  rw [getLsbD_imm12 _ hi, getLsbD_immSField w (by omega)]
  rcases Nat.lt_or_ge i 11 with h | h
  · rw [Nat.min_eq_left h.le, if_pos h]
  · simp [Nat.min_eq_right h, show ¬ i < 5 by omega, show ¬ i < 11 by omega]

theorem getLsbD_immB_offsetBField (w : Word) {i : Nat} (hi : i < 32) :
    (immB (offsetBField w)).getLsbD i =
      if i = 0 then false else if i < 5 then w.getLsbD (i + 7) else if i < 11 then w.getLsbD (i + 20)
        else if i = 11 then w.getLsbD 7 else w.getLsbD 31 := by
  rw [getLsbD_immB _ hi, getLsbD_offsetBField w (by omega)]
  rcases Nat.lt_or_ge i 12 with h | h
  · rw [Nat.min_eq_left h.le]
  · simp [Nat.min_eq_right h, show i ≠ 0 by omega, show ¬ i < 5 by omega, show ¬ i < 11 by omega,
      show i ≠ 11 by omega]

theorem getLsbD_immJ_offsetJField (w : Word) {i : Nat} (hi : i < 32) :
    (immJ (offsetJField w)).getLsbD i =
      if i = 0 then false else if i < 11 then w.getLsbD (i + 20) else if i = 11 then w.getLsbD 20
        else if i < 20 then w.getLsbD i else w.getLsbD 31 := by
  rw [getLsbD_immJ _ hi, getLsbD_offsetJField w (by omega)]
  rcases Nat.lt_or_ge i 20 with h | h
  · rw [Nat.min_eq_left h.le]
  · simp [Nat.min_eq_right h, show i ≠ 0 by omega, show ¬ i < 11 by omega, show i ≠ 11 by omega,
      show ¬ i < 20 by omega]

/-- Settles O9, one immediate after the other. -/
theorem scatteredImmediatesOfAWord : Obligations.ScatteredImmediatesOfAWord :=
  fun w _ hi => ⟨getLsbD_imm12_immSField w hi, getLsbD_immB_offsetBField w hi, getLsbD_immJ_offsetJField w hi⟩

end Sys2Proof.Machine

/-! ## Data accesses (spec/20_memory.md R52 to R57)

A read after a write of the same and of a narrower width, and the condition that reads and writes raise alike. -/

namespace Sys2Proof.Machine

/-- Settles O12: an access that is made writes its bytes, and the same access reads them. -/
theorem storeThenLoadReturnsTheTruncatedValue : Obligations.StoreThenLoadReturnsTheTruncatedValue := by
  intro m w a v hwf halign hin
  have hsize := m.writeBytes_size a.toNat v w.bytes
  refine ⟨_, memWrite_of_ok halign hin, Memory.wf_writeBytes hwf hin v, hsize, ?_, fun b hb => ?_⟩
  · rw [memRead_of_ok halign (hsize ▸ hin), Memory.read_writeBytes hwf w hin v]
  · rw [Memory.byte_writeBytes hwf hin v b, if_neg (by omega)]

/-- Two neighbouring bytes of a word are the halfword at the lower one (R52). -/
theorem append_extractLsb'_byte (v : Word) (k : Nat) :
    (v.extractLsb' (8 * (k + 1)) 8 ++ v.extractLsb' (8 * k) 8 : BitVec (8 + 8)) = v.extractLsb' (8 * k) 16 :=
  BitVec.extractLsb'_append_extractLsb'_eq_extractLsb' (Nat.mul_succ 8 k)

/-- Settles O13: each byte of a halfword inside the word is the byte of the word at its offset. -/
theorem narrowReadsSeeTheBytesOfAStoredWord : Obligations.NarrowReadsSeeTheBytesOfAStoredWord := by
  intro m m' a v hwf hwrite
  obtain ⟨-, hin, rfl⟩ := memWrite_eq_ok hwrite
  have hbyte {k : Nat} (hk : k < 4) := Memory.byte_writeBytes_at hwf hin v hk
  refine ⟨fun k hk => hbyte hk, fun k hk => ?_⟩
  rw [Memory.read, Nat.add_assoc, hbyte (show k < 4 by omega), hbyte (show k + 1 < 4 by omega)]
  exact append_extractLsb'_byte v k

/-- An access whose test raises is not made, be it a read or a write (R57). -/
theorem memRead_memWrite_of_condition {w : Width} {a : Word} {m : Memory} {c : Condition}
    (h : accessCondition w a m = some c) (v : Word) :
    memRead w a m = .error c ∧ memWrite w a v m = .error c := by
  simp only [memRead, memWrite, h, and_self]

/-- Settles O14, by which condition the access test raises. -/
theorem accessesTestAlignmentThenBounds : Obligations.AccessesTestAlignmentThenBounds := by
  intro m w a v
  exact ⟨fun hmis => memRead_memWrite_of_condition (accessCondition_eq_some.mpr (.inl ⟨hmis, rfl⟩)) v,
    fun halign hout => memRead_memWrite_of_condition (accessCondition_eq_some.mpr (.inr ⟨halign, hout, rfl⟩)) v⟩

end Sys2Proof.Machine

/-! ## Halfword and word loads and stores (spec/42_load_store.md R160, R164 to R169)

The effective address, the loaded values as numbers, and a fetch of the word a store has written. -/

namespace Sys2Proof.Machine

/-- A signed displacement is added modulo 2^32. -/
theorem add_imm12_eq_ofInt_toNat (a : Word) (imm : BitVec 12) :
    a + imm12 imm = BitVec.ofInt 32 ((a.toNat : Int) + imm.toInt) := by
  rw [add_eq_ofInt, toInt_imm12]

/-- Settles O24, by the sum with a signed displacement. -/
theorem effectiveAddressIsBasePlusSignedImmediate : Obligations.EffectiveAddressIsBasePlusSignedImmediate :=
  fun s rs1 imm => add_imm12_eq_ofInt_toNat (s.readReg rs1) imm

/-- The signed reading of a halfword, from its unsigned reading (R9). -/
theorem toInt_half (v : BitVec 16) :
    v.toInt = if v.toNat < 2 ^ 15 then (v.toNat : Int) else (v.toNat : Int) - 2 ^ 16 := by
  rw [BitVec.toInt_eq_toNat_cond]
  split_ifs <;> omega

/-- Settles O26: a load that is made writes back the extended halfword, whose extension keeps the reading. -/
theorem halfwordLoadsExtendTheHalfword : Obligations.HalfwordLoadsExtendTheHalfword := by
  intro s rd rs1 imm ea half
  have hhalf : (s.mem.read ea.toNat .half).toNat = half := s.mem.toNat_read_half ea.toNat
  refine ⟨fun halign hin => ⟨?lh, ?lhu⟩, stopsOnBadAccess_loadInto (e := sextLoad) rfl,
    stopsOnBadAccess_loadInto (e := zextLoad) rfl, Laws.TableRow.lh rd rs1 imm, Laws.TableRow.lhu rd rs1 imm⟩
  case lh =>
    refine registerResult_of_writeBack (loadInto_of_ok (w := .half) (extend := sextLoad) halign hin) ?_
    rw [toInt_sextLoad (by decide), ← hhalf]
    exact toInt_half _
  case lhu =>
    refine registerResult_of_writeBack (loadInto_of_ok (w := .half) (extend := zextLoad) halign hin) ?_
    exact (toNat_zextLoad (by decide) _).trans hhalf

/-- Settles O27: a load that is made writes back the word, whose value is that of its four bytes. -/
theorem wordLoadReadsTheWord : Obligations.WordLoadReadsTheWord := by
  intro s rd rs1 imm ea
  refine ⟨fun halign hin => ?lw, stopsOnBadAccess_loadInto (e := id) rfl, Laws.TableRow.lw rd rs1 imm⟩
  case lw =>
    exact registerResult_of_writeBack (loadInto_of_ok (w := .word) (extend := id) halign hin)
      (s.mem.toNat_read_word ea.toNat)

/-- Settles O29, by the result and the stop of a store of any width. -/
theorem halfwordAndWordStoresWriteTheLowBytes : Obligations.HalfwordAndWordStoresWriteTheLowBytes := by
  intro s rs2 rs1 imm hwf ea
  exact ⟨storeResult_of_storeFrom (w := .half) rfl hwf, storeResult_of_storeFrom (w := .word) rfl hwf,
    stopsOnBadAccess_storeFrom rfl, stopsOnBadAccess_storeFrom rfl,
    Laws.TableRow.sh rs2 rs1 imm, Laws.TableRow.sw rs2 rs1 imm⟩

/-- A word written in bounds is what a fetch from its address reads (R58, R67). -/
theorem fetch_writeBytes {m : Memory} (hwf : m.wf = true) {a : Word} (hin : a.toNat + Width.word.bytes ≤ m.size)
    (v : Word) : fetch a (m.writeBytes a.toNat v Width.word.bytes) = .ok v := by
  rcases fetch_cases a (m.writeBytes a.toNat v Width.word.bytes) with ⟨hout, -⟩ | ⟨-, hok⟩
  · rw [Memory.writeBytes_size] at hout
    exact absurd hout hin.not_gt
  · rw [hok, Memory.read_writeBytes hwf .word hin v]
    exact congrArg Except.ok (BitVec.setWidth_eq v)

/-- Settles O30: an SW that does not stop has written its word in bounds. -/
theorem storedWordIsFetched : Obligations.StoredWordIsFetched := by
  intro s t rs2 rs1 imm hwf _ hexec hrun
  rcases storeFrom_cases .word (s.effectiveAddress rs1 imm) (s.readReg rs2) s with ⟨c, -, h⟩ | ⟨hnone, h⟩
  · cases h.symm.trans hexec
    exact absurd hrun (s.halt_status_ne_running c)
  · cases h.symm.trans hexec
    exact fetch_writeBytes hwf (accessCondition_eq_none.mp hnone).2 _

end Sys2Proof.Machine

/-! ## Jumps and branches (spec/43_control_transfer.md)

What a transfer leaves when its target is a multiple of 4 and when it is not, and the targets as numbers. -/

namespace Sys2Proof.Machine

/-! ### A transfer that is made, and one that stops (R180) -/

theorem transfer_of_aligned {target : Word} {linked s : State} (h : target.toNat % 4 = 0) :
    transfer target linked s = .next (linked.retire target) := if_neg (not_not.mpr h)

theorem transfer_of_misaligned {target : Word} {linked s : State} (h : target.toNat % 4 ≠ 0) :
    transfer target linked s = .next (s.halt (.instructionAddressMisaligned target)) := if_pos h

/-- A jump links `pc + 4` and goes to its target, or stops there. -/
theorem jump_behaves {i : Instr} {s : State} {rd : RegNum} {address target : Word}
    (he : exec i s = transfer address (s.writeReg rd s.nextPc) s) (htarget : address = target) :
    (target.toNat % 4 = 0 → ∃ t, exec i s = .next t ∧ RegisterResult s t rd (s.pc + 4) target) ∧
    (target.toNat % 4 ≠ 0 → ∃ t, exec i s = .next t ∧ Stopped s t (.instructionAddressMisaligned target)) := by
  subst htarget
  exact ⟨fun h => ⟨_, he.trans (transfer_of_aligned h), registerResult_writeReg_retire ..⟩,
    fun h => ⟨_, he.trans (transfer_of_misaligned h), stopped_halt ..⟩⟩

/-- A branch follows its comparison. -/
theorem branchBehaves_of_branchTo {i : Instr} {s : State} {taken : Bool} {condition : Prop} {offset : BitVec 13}
    (he : exec i s = branchTo taken (s.branchTarget offset) s) (hc : taken = true ↔ condition) :
    BranchBehaves i condition offset s := by
  have htarget : s.branchTarget offset = BitVec.ofInt 32 (s.pc.toNat + offset.toInt) :=
    (add_eq_ofInt _ _).trans (by rw [toInt_immB])
  rw [htarget] at he
  refine ⟨fun hnot => ?_, fun htaken halign => ?_, fun htaken hmis => ?_⟩
  · exact ⟨_, he.trans (if_neg (mt hc.mp hnot)), pcResult_retire ..⟩
  · exact ⟨_, he.trans ((if_pos (hc.mpr htaken)).trans (transfer_of_aligned halign)), pcResult_retire ..⟩
  · exact ⟨_, he.trans ((if_pos (hc.mpr htaken)).trans (transfer_of_misaligned hmis)), stopped_halt ..⟩

/-! ### The targets as numbers (R182, R183) -/

theorem State.jalTarget_eq_ofInt (s : State) (offset : BitVec 21) :
    s.jalTarget offset = BitVec.ofInt 32 (s.pc.toNat + offset.toInt) := by
  rw [State.jalTarget, add_eq_ofInt, toInt_immJ]

/-- Clearing bit 0 rounds down to an even number. -/
theorem and_clearBit0 (a : Word) : a &&& 0xFFFFFFFE = BitVec.ofNat 32 (a.toNat / 2 * 2) := by
  have hshift : a &&& 0xFFFFFFFE = a >>> 1 <<< 1 := by
    refine BitVec.eq_of_getLsbD_eq fun i hi => ?_
    interval_cases i <;> simp
  refine hshift.trans (BitVec.eq_of_toNat_eq ?_)
  rw [BitVec.toNat_shiftLeft, BitVec.toNat_ushiftRight, BitVec.toNat_ofNat, Nat.shiftLeft_eq,
    Nat.shiftRight_eq_div_pow, Nat.pow_one]

theorem State.jalrTarget_eq_ofNat (s : State) (rs1 : RegNum) (imm : BitVec 12) :
    s.jalrTarget rs1 imm =
      BitVec.ofNat 32 ((BitVec.ofInt 32 ((s.readReg rs1).toNat + imm.toInt)).toNat / 2 * 2) := by
  rw [State.jalrTarget, add_imm12_eq_ofInt_toNat, and_clearBit0]

/-! ### The obligations -/

/-- Settles O31, by the two ends of a jump. -/
theorem jalLinksAndJumps : Obligations.JalLinksAndJumps := by
  intro s rd offset target
  obtain ⟨hjumps, hstops⟩ := jump_behaves (i := .jal rd offset) rfl (s.jalTarget_eq_ofInt offset)
  exact ⟨hjumps, hstops, Laws.TableRow.jal rd offset⟩

/-- Settles O32, by the two ends of a jump; the target is computed from the state before the link is written. -/
theorem jalrLinksAndJumps : Obligations.JalrLinksAndJumps := by
  intro s rd rs1 imm sum target
  obtain ⟨hjumps, hstops⟩ := jump_behaves (i := .jalr rd rs1 imm) rfl (s.jalrTarget_eq_ofNat rs1 imm)
  exact ⟨hjumps, hstops, Laws.TableRow.jalr rd rs1 imm⟩

/-- Settles O33: each branch is a `branchTo` whose test decides its comparison. -/
theorem branchesFollowTheirComparison : Obligations.BranchesFollowTheirComparison := by
  intro s rs1 rs2 offset a b
  exact ⟨branchBehaves_of_branchTo rfl decide_eq_true_iff, branchBehaves_of_branchTo rfl decide_eq_true_iff,
    branchBehaves_of_branchTo rfl decide_eq_true_iff, branchBehaves_of_branchTo rfl decide_eq_true_iff,
    branchBehaves_of_branchTo rfl decide_eq_true_iff, branchBehaves_of_branchTo rfl decide_eq_true_iff,
    Laws.TableRow.beq rs1 rs2 offset, Laws.TableRow.bne rs1 rs2 offset, Laws.TableRow.blt rs1 rs2 offset,
    Laws.TableRow.bltu rs1 rs2 offset, Laws.TableRow.bge rs1 rs2 offset, Laws.TableRow.bgeu rs1 rs2 offset⟩

end Sys2Proof.Machine

/-! ## CSR register forms, fences and environment instructions (spec/44_csr.md to spec/46_environment.md) -/

namespace Sys2Proof.Machine

/-- Settles O34: each is a CSR access in a canonical bank, with `x[rs1]` read before anything is written. -/
theorem csrRegisterFormsReadAndModify : Obligations.CsrRegisterFormsReadAndModify := by
  intro s rd rs1 a hwf
  refine ⟨?csrrw, ?csrrs, ?csrrc,
    Laws.TableRow.csrrw rd a rs1, Laws.TableRow.csrrs rd a rs1, Laws.TableRow.csrrc rd a rs1⟩
  case csrrw => exact csrResult_of_csrAccess_eq (update := fun _ => s.readReg rs1) hwf rfl rfl
  case csrrs =>
    exact csrResult_of_csrAccess (update := fun old => old ||| s.readReg rs1) hwf rfl fun _ => BitVec.getLsbD_or
  case csrrc =>
    exact csrResult_of_csrAccess (update := fun old => old &&& ~~~s.readReg rs1) hwf rfl (getLsbD_and_not _ _)

/-- Settles O36, by the result of an instruction that only sets the pc. -/
theorem fencesOnlyAdvanceThePc : Obligations.FencesOnlyAdvanceThePc :=
  fun s => ⟨⟨_, rfl, pcResult_retire s s.nextPc⟩, ⟨_, rfl, pcResult_retire s s.nextPc⟩⟩

/-- Settles O37: each retires with its signal, of which in Running the step's result is made. -/
theorem environmentInstructionsSignalAndRetire : Obligations.EnvironmentInstructionsSignalAndRetire := by
  intro s hs
  have hresult (g : EnvSignal) := State.stepResult_of_running (t := s.retireWith s.nextPc (some g)) hs
  obtain ⟨-, hcall, -⟩ := hresult .envCall
  obtain ⟨-, -, hbreak⟩ := hresult .envBreak
  exact ⟨⟨_, rfl, rfl, fun _ => rfl, fun _ => rfl, sameMem_of_mem_eq rfl, hs, hcall rfl⟩,
    ⟨_, rfl, rfl, fun _ => rfl, fun _ => rfl, sameMem_of_mem_eq rfl, hs, hbreak rfl⟩⟩

end Sys2Proof.Machine

/-! ## What no step reads: the CSR bank and the signal (spec/10_state.md R30, spec/60_exceptions.md R256)

Two runs from states that differ in these two fields alone. One step of both ends alike: either both stop with the same
record, or both retire with everything but the bank the same. -/

namespace Sys2Proof.Machine

/-! ### The twin of a state, and a pair of ends -/

/-- The state with another bank and another signal. -/
def State.twin (s : State) (bank : List (Nat × Word)) (g : Option EnvSignal) : State :=
  { s with csr := bank, signal := g }

/-- The state with another bank. -/
def State.withBank (s : State) (bank : List (Nat × Word)) : State := { s with csr := bank }

/-- How one step ends from `s` and from its twin: stopped, the second state is the twin of the first; retired, it is
the first with the twin's bank, since retiring sets the signal and only a CSR instruction writes the bank. -/
inductive TwinEnds (s : State) (bank : List (Nat × Word)) (g : Option EnvSignal) : Outcome → Outcome → Prop where
  | halts (c : Condition) : TwinEnds s bank g (.next (s.halt c)) (.next ((s.halt c).twin bank g))
  | retires (t : State) (hstatus : t.status = s.status) (hbank : t.csr = s.csr) :
      TwinEnds s bank g (.next t) (.next (t.withBank bank))

section
variable {s : State} {bank : List (Nat × Word)} {g : Option EnvSignal}

@[simp] theorem State.twin_mem : (s.twin bank g).mem = s.mem := rfl
@[simp] theorem State.twin_status : (s.twin bank g).status = s.status := rfl
@[simp] theorem State.fetchDecode_twin : (s.twin bank g).fetchDecode = s.fetchDecode := rfl

/-! ### The operations that end an instruction -/

/-- The register write reads neither field. -/
theorem State.writeReg_twin_retire (rd : RegNum) (v next : Word) :
    ((s.twin bank g).writeReg rd v).retire next = ((s.writeReg rd v).retire next).withBank bank := by
  unfold State.writeReg
  split <;> rfl

theorem twinEnds_raise (c : Condition) : TwinEnds s bank g (raise c s) (raise c (s.twin bank g)) :=
  .halts c

theorem twinEnds_retireWith (next : Word) (signal : Option EnvSignal) :
    TwinEnds s bank g (.next (s.retireWith next signal)) (.next ((s.twin bank g).retireWith next signal)) :=
  .retires _ rfl rfl

theorem twinEnds_writeReg_retire (rd : RegNum) (v next : Word) :
    TwinEnds s bank g (.next ((s.writeReg rd v).retire next))
      (.next (((s.twin bank g).writeReg rd v).retire next)) := by
  rw [State.writeReg_twin_retire]
  exact .retires _ (s.writeReg_status rd v) (s.writeReg_csr rd v)

theorem twinEnds_loadInto (rd : RegNum) (w : Width) (ea : Word) (extend : BitVec w.bits → Word) :
    TwinEnds s bank g (loadInto rd w ea extend s) (loadInto rd w ea extend (s.twin bank g)) := by
  simp only [loadInto, State.twin_mem]
  cases memRead w ea s.mem with
  | error c => exact twinEnds_raise c
  | ok v => exact twinEnds_writeReg_retire rd (extend v) s.nextPc

theorem twinEnds_storeFrom (w : Width) (ea v : Word) :
    TwinEnds s bank g (storeFrom w ea v s) (storeFrom w ea v (s.twin bank g)) := by
  simp only [storeFrom, State.twin_mem]
  cases memWrite w ea v s.mem with
  | error c => exact twinEnds_raise c
  | ok m => exact .retires _ rfl rfl

theorem twinEnds_jump (target : Word) (rd : RegNum) :
    TwinEnds s bank g (transfer target (s.writeReg rd s.nextPc) s)
      (transfer target ((s.twin bank g).writeReg rd s.nextPc) (s.twin bank g)) := by
  unfold transfer
  split
  · exact twinEnds_raise _
  · exact twinEnds_writeReg_retire rd s.nextPc target

theorem twinEnds_branchTo (taken : Bool) (target : Word) :
    TwinEnds s bank g (branchTo taken target s) (branchTo taken target (s.twin bank g)) := by
  unfold branchTo transfer
  split
  · split
    · exact twinEnds_raise _
    · exact twinEnds_retireWith target none
  · exact twinEnds_retireWith s.nextPc none

/-! ### The instructions and the step -/

/-- An instruction that is no CSR instruction ends alike: its operands are read from registers, pc and memory. -/
theorem twinEnds_exec {i : Instr} (hi : i.group ≠ .csr) : TwinEnds s bank g (exec i s) (exec i (s.twin bank g)) := by
  cases i with
  | csrrw | csrrs | csrrc | csrrwi | csrrsi | csrrci => exact absurd rfl hi
  | lb | lbu | lh | lhu | lw => exact twinEnds_loadInto ..
  | sb | sh | sw => exact twinEnds_storeFrom ..
  | jal | jalr => exact twinEnds_jump ..
  | beq | bne | blt | bltu | bge | bgeu => exact twinEnds_branchTo ..
  | fence | fenceI | ecall | ebreak => exact twinEnds_retireWith ..
  | add | sub | sll | slt | sltu | xor | srl | sra | or | and | addi | slti | sltiu | xori | ori | andi | slli | srli
  | srai | lui | auipc => exact twinEnds_writeReg_retire ..

/-- The fetch and the decode read pc and memory alone. -/
theorem twinEnds_step (hs : s.status = .running) (hi : ∀ i, s.fetchDecode = .ok i → i.group ≠ .csr) :
    TwinEnds s bank g (step s) (step (s.twin bank g)) := by
  simp only [step, State.twin_status, State.fetchDecode_twin, hs]
  cases h : s.fetchDecode with
  | error c => exact twinEnds_raise c
  | ok i => exact twinEnds_exec (hi i h)

/-- A CSR instruction retires and sets the signal, so from the same bank it ends in the same state. -/
theorem exec_twin_of_csr {i : Instr} (hi : i.group = .csr) :
    ∃ t, exec i s = .next t ∧ exec i (s.twin s.csr g) = .next t ∧ t.status = s.status := by
  have haccess (rd : RegNum) (a : CsrNum) (update : Word → Word) : ∃ t, csrAccess rd a update s = .next t ∧
      csrAccess rd a update (s.twin s.csr g) = .next t ∧ t.status = s.status := by
    refine ⟨_, rfl, ?_, by simp⟩
    unfold csrAccess State.writeReg
    split <;> rfl
  cases i with
  | csrrw rd a rs1 => exact haccess rd a fun _ => s.readReg rs1
  | csrrs rd a rs1 => exact haccess rd a fun old => old ||| s.readReg rs1
  | csrrc rd a rs1 => exact haccess rd a fun old => old &&& ~~~s.readReg rs1
  | csrrwi rd a uimm => exact haccess rd a fun _ => zextUimm uimm
  | csrrsi rd a uimm => exact haccess rd a fun old => old ||| zextUimm uimm
  | csrrci rd a uimm => exact haccess rd a fun old => old &&& ~~~zextUimm uimm
  | _ => cases hi

end

/-! ### The obligations -/

/-- A step that answers a state was taken in Running. -/
theorem running_of_step {s t : State} (h : step s = .next t) : s.status = .running := by
  rcases step_cases s with ⟨_, -, hfault⟩ | ⟨hs, -⟩ | ⟨_, hs, -⟩ | ⟨_, hs, -⟩
  · cases hfault.symm.trans h
  all_goals exact hs

/-- States that agree on everything but the bank are twins with the same signal. -/
theorem AgreeButCsr.eq_twin {s s' : State} (h : AgreeButCsr s s') : s.twin s'.csr s.signal = s' := by
  obtain ⟨hx, hpc, hmem, hstatus, hsignal⟩ := h
  rw [State.twin, ← hx, ← hpc, ← hmem, ← hstatus, ← hsignal]

/-- Settles O48: the second state is the twin of the first with its own bank. -/
theorem csrContentsDoNotAffectOtherInstructions : Obligations.CsrContentsDoNotAffectOtherInstructions := by
  intro s s' t hagree hi hstep
  have hends : TwinEnds s s'.csr s.signal (step s) (step s') :=
    hagree.eq_twin ▸ twinEnds_step (running_of_step hstep) hi
  rw [hstep] at hends
  generalize step s' = outcome at hends ⊢
  cases hends with
  | halts | retires => exact ⟨_, rfl, ⟨rfl, rfl, rfl, rfl, rfl⟩, rfl⟩

/-- Settles O49: a CSR instruction ends in the same state; any other step ends alike from the twin with the same
bank, which it leaves as it is. -/
theorem noStepReadsTheSignal : Obligations.NoStepReadsTheSignal := by
  intro s t g hstep
  change (_ → step (s.twin s.csr g) = _) ∧ (_ → step (s.twin s.csr g) = _)
  have hs := running_of_step hstep
  by_cases hcsr : ∃ i, s.fetchDecode = .ok i ∧ i.group = .csr
  · obtain ⟨i, hi, hg⟩ := hcsr
    obtain ⟨u, hu, htwin, hstatus⟩ := exec_twin_of_csr (s := s) (g := g) hg
    obtain rfl : u = t := Host.Outcome.next.inj (hu.symm.trans ((step_eq_exec hs hi).symm.trans hstep))
    exact ⟨fun _ => (step_eq_exec (s := s.twin s.csr g) hs hi).trans htwin,
      fun hstop => absurd (hstatus.trans hs) hstop⟩
  · have hends : TwinEnds s s.csr g (step s) (step (s.twin s.csr g)) :=
      twinEnds_step hs fun i hi hg => hcsr ⟨i, hi, hg⟩
    rw [hstep] at hends
    generalize step (s.twin s.csr g) = outcome at hends ⊢
    cases hends with
    | halts c => exact ⟨fun hrun => absurd hrun (s.halt_status_ne_running c), fun _ => rfl⟩
    | retires _ hstatus hbank =>
      rw [← hbank]
      exact ⟨fun _ => rfl, fun hstop => absurd (hstatus.trans hs) hstop⟩

end Sys2Proof.Machine

/-! ## Reset, launch and the run protocol (spec/10_state.md R39, spec/70_reset_and_hazards.md)

What the launched machine holds and that it meets the invariant; the reset state is one such launch. -/

namespace Sys2Proof.Machine

/-! ### The launched machine (R280, R284, R285) -/

section
variable (c : Config) (image : List Byte)

theorem launch_of_fits {c : Config} {image : List Byte} (hlegal : Config.LegalMemSize c.memSize)
    (hfits : image.length ≤ c.memSize) : launch c image = .next (State.init c image) := by
  rw [launch, if_pos hlegal, if_pos hfits]

theorem State.init_inv {c : Config} (hlegal : Config.LegalMemSize c.memSize) : (State.init c image).Inv where
  memWf := sparseWf_sparseOfFun _ _ _ (Nat.zero_add _).le
  csrWf := rfl
  memSize := hlegal
  pcAligned := rfl
  record := nofun

/-- Entry `r - 1` of the register file is `reg_init(r)`. -/
theorem State.readReg_init {r : RegNum} (hr : r ≠ 0) : (State.init c image).readReg r = c.regInit r := by
  have hpos : r.toNat ≠ 0 := fun h => hr (BitVec.eq_of_toNat_eq h)
  have hindex : BitVec.ofNat 5 (r.toNat - 1 + 1) = r := by
    rw [Nat.sub_add_cancel (Nat.pos_of_ne_zero hpos), BitVec.ofNat_toNat, BitVec.setWidth_eq]
  simp only [State.readReg, State.init, hr, if_false, Vector.getElem_ofFn, hindex]

/-- Every byte in bounds holds its reset content. -/
theorem State.byte_init {k : Nat} (hk : k < c.memSize) :
    (State.init c image).mem.byte k = initByte c.memInit image k :=
  (sparseGet_sparseOfFun _ _ _ _).trans (if_pos ⟨Nat.zero_le k, by omega⟩)

theorem initByte_of_lt (memInit : Nat → Byte) {k : Nat} (hk : k < image.length) :
    initByte memInit image k = image[k] := by
  rw [initByte, List.getElem?_eq_getElem hk, Option.getD_some]

theorem initByte_of_ge (memInit : Nat → Byte) {k : Nat} (hk : image.length ≤ k) :
    initByte memInit image k = memInit k := by
  rw [initByte, List.getElem?_eq_none hk, Option.getD_none]

end

/-- Settles O52, field by field of the launched state. -/
theorem launchLoadsTheImage : Obligations.LaunchLoadsTheImage := by
  intro c image hlegal hfits
  refine ⟨_, launch_of_fits hlegal hfits, State.init_inv image hlegal, rfl, rfl, rfl, State.readReg_zero _,
    fun r hr => State.readReg_init c image hr, fun _ => rfl, fun k hk => ?inImage, fun k hge hlt => ?aboveImage⟩
  case inImage => rw [State.byte_init c image (hk.trans_le hfits), initByte_of_lt image c.memInit hk]
  case aboveImage => rw [State.byte_init c image hlt, initByte_of_ge image c.memInit hge]

/-- Settles O53, by the test of the length. -/
theorem longImageIsRefused : Obligations.LongImageIsRefused := by
  intro c image hlegal hlong
  rw [launch, if_pos hlegal, if_neg hlong.not_ge]

/-! ### The reset state is a launch -/

/-- A function that is nowhere but the default gives the empty map. -/
theorem sparseOfFun_default {α : Type} [DecidableEq α] {d : α} {f : Nat → α} (hf : ∀ a, f a = d) (n lo : Nat) :
    sparseOfFun d f lo n = [] := by
  induction n generalizing lo with
  | zero => rfl
  | succ n ih => rw [sparseOfFun, if_pos (hf lo), ih]

theorem State.init_reference : State.init Config.reference [] = State.reset := by
  have hx : (Vector.ofFn fun k : Fin 31 => Config.reference.regInit (BitVec.ofNat 5 (k.val + 1))) =
      Vector.replicate 31 0 := by
    ext k hk
    simp [Config.reference]
  have hmem : Memory.init Config.referenceMemSize (fun _ => 0) [] = ⟨Config.referenceMemSize, []⟩ :=
    congrArg (Memory.mk _) (sparseOfFun_default (initByte_of_ge [] _ <| Nat.zero_le ·) _ _)
  rw [State.init, State.reset, hx]
  exact congrArg (fun m => (⟨_, _, _, m, _, _⟩ : State)) hmem

theorem legalMemSize_reference : Config.LegalMemSize Config.reference.memSize := by decide

/-- Settles O54: the empty image fits, and all registers and all bytes are 0. -/
theorem resetIsTheAllZerosLaunch : Obligations.ResetIsTheAllZerosLaunch :=
  (launch_of_fits legalMemSize_reference (Nat.zero_le _)).trans (congrArg _ State.init_reference)

/-- Settles O50, the invariant from that of every launch. -/
theorem resetMeetsTheInvariant : Obligations.ResetMeetsTheInvariant :=
  ⟨rfl, State.reset.readReg_zero, State.readCsr_reset, rfl, rfl,
    State.init_reference ▸ State.init_inv [] legalMemSize_reference⟩

/-! ### The run protocol (R288, R291) -/

/-- A step to Fatal ends the run. -/
theorem runProtocol_succ_of_fatal {s t : State} {record : FatalRecord} (fuel : Nat) (hstep : step s = .next t)
    (hfatal : t.status = .fatal record) : runProtocol (fuel + 1) s = .fatal record t := by
  simp only [runProtocol, hstep, hfatal]

/-- Settles O56: after a step that retires the loop goes on but for the ECALL word, and a Fatal step ends it. -/
theorem otherWordsContinueTheRun : Obligations.OtherWordsContinueTheRun := by
  intro s t fuel hstep
  refine ⟨fun hrun hother => ?_, fun _ => runProtocol_succ_of_fatal fuel hstep⟩
  rw [runProtocol_succ_of_running fuel hstep hrun]
  exact if_neg hother

end Sys2Proof.Machine
